-- ==== Sys2Proof/Word.lean ====
section
/-! DEFINITION. The widths of the cc-notes RV64I core: registers and addresses (00_scope.md R6, R10),
bytes of memory (20_memory.md R50), instruction words (30_encoding.md R80), register indices (R21). -/

namespace Sys2Proof

/-- A register value or an address: a 64-bit pattern with no stored signedness (R10). -/
abbrev Word := BitVec 64

/-- One byte of the memory image (R37). -/
abbrev Byte := BitVec 8

/-- One instruction word; there is one length only (R80). -/
abbrev InstrWord := BitVec 32

/-- The index of a general register, 0 to 31 (R21). -/
abbrev Reg := Fin 32

end Sys2Proof
end

