-- ==== Sys2Proof/Machine/Flags.lean ====
section
/-! DEFINITION. There are no status flags and no condition codes (10_state.md R30). What stands in their
place are the comparisons that the branches and the set-less-than instructions make on two 64-bit patterns
(00_scope.md R10). -/

namespace Sys2Proof.Machine

/-- `a <s b`: both patterns read as two's complement. -/
def lessSigned (a b : Word) : Bool := decide (a.toInt < b.toInt)

/-- `a <u b`: both patterns read as unsigned. -/
def lessUnsigned (a b : Word) : Bool := decide (a.toNat < b.toNat)

/-- The two patterns are equal. -/
def equalWords (a b : Word) : Bool := decide (a = b)

/-- 1 when the comparison holds, else 0 (R176, R177). -/
def boolWord (c : Bool) : Word := if c then 1#64 else 0#64

end Sys2Proof.Machine
end

