-- ==== Sys2Proof/Syntax.lean ====
section
/-! DEFINITION. The instructions: one constructor per row of spec/opcode_table.json, with the operands the
row's format gives it (30_encoding.md R82, R102). Immediates are kept at their native encoded width:
12 bits for I and S, 13 for B, the 20-bit field for U, 21 for J (R83 to R87). Branch and jump offsets are
byte offsets, so their bit 0 is a check of `Instr.wellFormed`. -/

namespace Sys2Proof

/-- The 37 rows of the opcode table, in its order. -/
inductive Instr where
  /-- R130 -/
  | lui (rd : Reg) (imm20 : BitVec 20)
  /-- R131 -/
  | auipc (rd : Reg) (imm20 : BitVec 20)
  /-- R135 -/
  | jal (rd : Reg) (off : BitVec 21)
  /-- R136 -/
  | jalr (rd rs1 : Reg) (imm : BitVec 12)
  /-- R141 -/
  | beq (rs1 rs2 : Reg) (off : BitVec 13)
  /-- R142 -/
  | bne (rs1 rs2 : Reg) (off : BitVec 13)
  /-- R143 -/
  | blt (rs1 rs2 : Reg) (off : BitVec 13)
  /-- R144 -/
  | bge (rs1 rs2 : Reg) (off : BitVec 13)
  /-- R145 -/
  | bltu (rs1 rs2 : Reg) (off : BitVec 13)
  /-- R146 -/
  | bgeu (rs1 rs2 : Reg) (off : BitVec 13)
  /-- R151 -/
  | lb (rd rs1 : Reg) (imm : BitVec 12)
  /-- R152 -/
  | lh (rd rs1 : Reg) (imm : BitVec 12)
  /-- R153 -/
  | lw (rd rs1 : Reg) (imm : BitVec 12)
  /-- R154 -/
  | ld (rd rs1 : Reg) (imm : BitVec 12)
  /-- R155 -/
  | lbu (rd rs1 : Reg) (imm : BitVec 12)
  /-- R156 -/
  | lhu (rd rs1 : Reg) (imm : BitVec 12)
  /-- R157 -/
  | lwu (rd rs1 : Reg) (imm : BitVec 12)
  /-- R161: `rs1` is the base, `rs2` the data -/
  | sb (rs1 rs2 : Reg) (imm : BitVec 12)
  /-- R162 -/
  | sh (rs1 rs2 : Reg) (imm : BitVec 12)
  /-- R163 -/
  | sw (rs1 rs2 : Reg) (imm : BitVec 12)
  /-- R164 -/
  | sd (rs1 rs2 : Reg) (imm : BitVec 12)
  /-- R171 -/
  | addi (rd rs1 : Reg) (imm : BitVec 12)
  /-- R172 -/
  | xori (rd rs1 : Reg) (imm : BitVec 12)
  /-- R173 -/
  | ori (rd rs1 : Reg) (imm : BitVec 12)
  /-- R174 -/
  | andi (rd rs1 : Reg) (imm : BitVec 12)
  /-- R186 -/
  | add (rd rs1 rs2 : Reg)
  /-- R187 -/
  | sub (rd rs1 rs2 : Reg)
  /-- R188 -/
  | xor (rd rs1 rs2 : Reg)
  /-- R189 -/
  | or (rd rs1 rs2 : Reg)
  /-- R190 -/
  | and (rd rs1 rs2 : Reg)
  /-- R195: the all-zero word -/
  | halt
  /-- R196: every word with opcode 0x73. `rest` is bits 31:7, which select nothing and are kept so that
  the fault can record the word. -/
  | system (rest : BitVec 25)
  /-- R176, only with OPIMM_EXTRA -/
  | slti (rd rs1 : Reg) (imm : BitVec 12)
  /-- R177, only with OPIMM_EXTRA -/
  | sltiu (rd rs1 : Reg) (imm : BitVec 12)
  /-- R178, only with OPIMM_EXTRA -/
  | slli (rd rs1 : Reg) (shamt : BitVec 6)
  /-- R179, only with OPIMM_EXTRA -/
  | srli (rd rs1 : Reg) (shamt : BitVec 6)
  /-- R180, only with OPIMM_EXTRA -/
  | srai (rd rs1 : Reg) (shamt : BitVec 6)
  deriving DecidableEq, Repr

end Sys2Proof
end

