-- ==== Sys2Proof/WellFormed.lean ====
section
/-! DEFINITION. Which terms of `Instr` the encoding can express. Every field but the branch and jump
offsets has exactly the width of its place in the word (30_encoding.md R82); bit 0 of a B- or J-immediate
has no place there and is always zero (R85, R87). -/

namespace Sys2Proof

/-- A byte offset with no bit 0 of its own in the word (R85, R87). -/
def evenOffset {n : Nat} (off : BitVec n) : Bool := !off.getLsbD 0

/-- The instruction has an encoding: its offset, if it has one, is even. -/
def Instr.wellFormed : Instr → Bool
  | .jal _ off => evenOffset off
  | .beq _ _ off => evenOffset off
  | .bne _ _ off => evenOffset off
  | .blt _ _ off => evenOffset off
  | .bge _ _ off => evenOffset off
  | .bltu _ _ off => evenOffset off
  | .bgeu _ _ off => evenOffset off
  | .lui _ _ | .auipc _ _ | .jalr _ _ _ => true
  | .lb _ _ _ | .lh _ _ _ | .lw _ _ _ | .ld _ _ _ | .lbu _ _ _ | .lhu _ _ _ | .lwu _ _ _ => true
  | .sb _ _ _ | .sh _ _ _ | .sw _ _ _ | .sd _ _ _ => true
  | .addi _ _ _ | .xori _ _ _ | .ori _ _ _ | .andi _ _ _ => true
  | .add _ _ _ | .sub _ _ _ | .xor _ _ _ | .or _ _ _ | .and _ _ _ => true
  | .halt | .system _ => true
  | .slti _ _ _ | .sltiu _ _ _ | .slli _ _ _ | .srli _ _ _ | .srai _ _ _ => true

end Sys2Proof
end

