-- ==== Sys2Proof/Decode.lean ====
section
/-! DEFINITION. Decoding and encoding, 30_encoding.md. Fields and immediates are pulled out of the word
here and nowhere else (R81 to R87); dispatch follows the opcode, funct3 and funct7 maps (R89 to R95) in
the order R96 fixes; every other word is rejected by a name that says which part of R197's list it is in.
The numeric values are the spec's G1 to G4, taken from the standard it names (decision D20, log 14). -/

namespace Sys2Proof

/-! ## Fields (R81) -/

def fieldOpcode (w : InstrWord) : BitVec 7 := w.extractLsb' 0 7
def fieldRd (w : InstrWord) : Reg := (w.extractLsb' 7 5).toFin
def fieldFunct3 (w : InstrWord) : BitVec 3 := w.extractLsb' 12 3
def fieldRs1 (w : InstrWord) : Reg := (w.extractLsb' 15 5).toFin
def fieldRs2 (w : InstrWord) : Reg := (w.extractLsb' 20 5).toFin
def fieldFunct7 (w : InstrWord) : BitVec 7 := w.extractLsb' 25 7

/-! ## Immediates at their native width (R83 to R87), and the shift amount (R178 to R180) -/

/-- `inst[31:20]` (R83). -/
def fieldImmI (w : InstrWord) : BitVec 12 := w.extractLsb' 20 12
/-- The concatenation of `inst[31:25]` and `inst[11:7]` (R84). -/
def fieldImmS (w : InstrWord) : BitVec 12 := w.extractLsb' 25 7 ++ w.extractLsb' 7 5
/-- `inst[31]`, `inst[7]`, `inst[30:25]`, `inst[11:8]` and a zero bit (R85). -/
def fieldImmB (w : InstrWord) : BitVec 13 :=
  w.extractLsb' 31 1 ++ w.extractLsb' 7 1 ++ w.extractLsb' 25 6 ++ w.extractLsb' 8 4 ++ 0#1
/-- The 20-bit field `inst[31:12]` (R86). -/
def fieldImmU (w : InstrWord) : BitVec 20 := w.extractLsb' 12 20
/-- `inst[31]`, `inst[19:12]`, `inst[20]`, `inst[30:21]` and a zero bit (R87). -/
def fieldImmJ (w : InstrWord) : BitVec 21 :=
  w.extractLsb' 31 1 ++ w.extractLsb' 12 8 ++ w.extractLsb' 20 1 ++ w.extractLsb' 21 10 ++ 0#1
/-- `inst[25:20]` (R178). -/
def fieldShamt (w : InstrWord) : BitVec 6 := w.extractLsb' 20 6
/-- `inst[31:26]` (R178). -/
def fieldFunct6 (w : InstrWord) : BitVec 6 := w.extractLsb' 26 6
/-- `inst[31:7]`, which a SYSTEM word ignores (R98). -/
def fieldRest (w : InstrWord) : BitVec 25 := w.extractLsb' 7 25

/-! ## Decoding -/

/-- Why a word has no instruction: the parts (a) to (g) of R197's list, and a byte string too short to
hold a word. -/
inductive Reject where
  /-- (a) an opcode that is none of the ten of R89 -/
  | opcode
  /-- (b) JALR with funct3 other than 000 (R95, decision D3) -/
  | jalrFunct3
  /-- (c) a branch with funct3 010 or 011 (R90) -/
  | branchFunct3
  /-- (d) a load with funct3 111 (R91, decision D4) -/
  | loadFunct3
  /-- (e) a store with funct3 100 to 111 (R92, decision D4) -/
  | storeFunct3
  /-- (f) in the baseline, OP-IMM with funct3 001, 010, 011 or 101 (R175, decision D1) -/
  | opImmBaseline
  /-- (f) with OPIMM_EXTRA, a shift encoding whose `inst[31:26]` is wrong (R178 to R180) -/
  | opImmShift
  /-- (g) OP with a funct3 and funct7 pair outside R94 (R191, decision D2) -/
  | opFunct
  /-- fewer than four bytes: no word was there to decode (only `decodeBytes` answers this) -/
  | truncated
  deriving DecidableEq, Repr

/-- What the decoder makes of a word. -/
inductive Decoded where
  | instr (i : Instr)
  | illegal (why : Reject)
  deriving DecidableEq, Repr

/-- BRANCH, opcode 0x63 (R90). -/
def decodeBranch (w : InstrWord) : Decoded :=
  if fieldFunct3 w = 0b000#3 then .instr (.beq (fieldRs1 w) (fieldRs2 w) (fieldImmB w))
  else if fieldFunct3 w = 0b001#3 then .instr (.bne (fieldRs1 w) (fieldRs2 w) (fieldImmB w))
  else if fieldFunct3 w = 0b100#3 then .instr (.blt (fieldRs1 w) (fieldRs2 w) (fieldImmB w))
  else if fieldFunct3 w = 0b101#3 then .instr (.bge (fieldRs1 w) (fieldRs2 w) (fieldImmB w))
  else if fieldFunct3 w = 0b110#3 then .instr (.bltu (fieldRs1 w) (fieldRs2 w) (fieldImmB w))
  else if fieldFunct3 w = 0b111#3 then .instr (.bgeu (fieldRs1 w) (fieldRs2 w) (fieldImmB w))
  else .illegal .branchFunct3

/-- LOAD, opcode 0x03 (R91). -/
def decodeLoad (w : InstrWord) : Decoded :=
  if fieldFunct3 w = 0b000#3 then .instr (.lb (fieldRd w) (fieldRs1 w) (fieldImmI w))
  else if fieldFunct3 w = 0b001#3 then .instr (.lh (fieldRd w) (fieldRs1 w) (fieldImmI w))
  else if fieldFunct3 w = 0b010#3 then .instr (.lw (fieldRd w) (fieldRs1 w) (fieldImmI w))
  else if fieldFunct3 w = 0b011#3 then .instr (.ld (fieldRd w) (fieldRs1 w) (fieldImmI w))
  else if fieldFunct3 w = 0b100#3 then .instr (.lbu (fieldRd w) (fieldRs1 w) (fieldImmI w))
  else if fieldFunct3 w = 0b101#3 then .instr (.lhu (fieldRd w) (fieldRs1 w) (fieldImmI w))
  else if fieldFunct3 w = 0b110#3 then .instr (.lwu (fieldRd w) (fieldRs1 w) (fieldImmI w))
  else .illegal .loadFunct3

/-- STORE, opcode 0x23 (R92). -/
def decodeStore (w : InstrWord) : Decoded :=
  if fieldFunct3 w = 0b000#3 then .instr (.sb (fieldRs1 w) (fieldRs2 w) (fieldImmS w))
  else if fieldFunct3 w = 0b001#3 then .instr (.sh (fieldRs1 w) (fieldRs2 w) (fieldImmS w))
  else if fieldFunct3 w = 0b010#3 then .instr (.sw (fieldRs1 w) (fieldRs2 w) (fieldImmS w))
  else if fieldFunct3 w = 0b011#3 then .instr (.sd (fieldRs1 w) (fieldRs2 w) (fieldImmS w))
  else .illegal .storeFunct3

/-- The last row of R93's table: the four open OP-IMM funct3 values when OPIMM_EXTRA is true. -/
def decodeOpImmExtra (w : InstrWord) : Decoded :=
  if fieldFunct3 w = 0b010#3 then .instr (.slti (fieldRd w) (fieldRs1 w) (fieldImmI w))
  else if fieldFunct3 w = 0b011#3 then .instr (.sltiu (fieldRd w) (fieldRs1 w) (fieldImmI w))
  else if fieldFunct3 w = 0b001#3 ∧ fieldFunct6 w = 0b000000#6 then
    .instr (.slli (fieldRd w) (fieldRs1 w) (fieldShamt w))
  else if fieldFunct3 w = 0b101#3 ∧ fieldFunct6 w = 0b000000#6 then
    .instr (.srli (fieldRd w) (fieldRs1 w) (fieldShamt w))
  else if fieldFunct3 w = 0b101#3 ∧ fieldFunct6 w = 0b010000#6 then
    .instr (.srai (fieldRd w) (fieldRs1 w) (fieldShamt w))
  else .illegal .opImmShift

/-- OP-IMM, opcode 0x13 (R93); `extra` is the parameter OPIMM_EXTRA. -/
def decodeOpImm (extra : Bool) (w : InstrWord) : Decoded :=
  if fieldFunct3 w = 0b000#3 then .instr (.addi (fieldRd w) (fieldRs1 w) (fieldImmI w))
  else if fieldFunct3 w = 0b100#3 then .instr (.xori (fieldRd w) (fieldRs1 w) (fieldImmI w))
  else if fieldFunct3 w = 0b110#3 then .instr (.ori (fieldRd w) (fieldRs1 w) (fieldImmI w))
  else if fieldFunct3 w = 0b111#3 then .instr (.andi (fieldRd w) (fieldRs1 w) (fieldImmI w))
  else if extra then decodeOpImmExtra w
  else .illegal .opImmBaseline

/-- OP, opcode 0x33: the match is on all of funct7 (R94, R191). -/
def decodeOp (w : InstrWord) : Decoded :=
  if fieldFunct3 w = 0b000#3 ∧ fieldFunct7 w = 0b0000000#7 then
    .instr (.add (fieldRd w) (fieldRs1 w) (fieldRs2 w))
  else if fieldFunct3 w = 0b000#3 ∧ fieldFunct7 w = 0b0100000#7 then
    .instr (.sub (fieldRd w) (fieldRs1 w) (fieldRs2 w))
  else if fieldFunct3 w = 0b100#3 ∧ fieldFunct7 w = 0b0000000#7 then
    .instr (.xor (fieldRd w) (fieldRs1 w) (fieldRs2 w))
  else if fieldFunct3 w = 0b110#3 ∧ fieldFunct7 w = 0b0000000#7 then
    .instr (.or (fieldRd w) (fieldRs1 w) (fieldRs2 w))
  else if fieldFunct3 w = 0b111#3 ∧ fieldFunct7 w = 0b0000000#7 then
    .instr (.and (fieldRd w) (fieldRs1 w) (fieldRs2 w))
  else .illegal .opFunct

/-- The decoder, in the order of R96: the zero word, then the opcode, then within the class. -/
def decode (extra : Bool) (w : InstrWord) : Decoded :=
  if w = 0#32 then .instr .halt
  else if fieldOpcode w = 0b0110111#7 then .instr (.lui (fieldRd w) (fieldImmU w))
  else if fieldOpcode w = 0b0010111#7 then .instr (.auipc (fieldRd w) (fieldImmU w))
  else if fieldOpcode w = 0b1101111#7 then .instr (.jal (fieldRd w) (fieldImmJ w))
  else if fieldOpcode w = 0b1100111#7 then
    if fieldFunct3 w = 0b000#3 then .instr (.jalr (fieldRd w) (fieldRs1 w) (fieldImmI w))
    else .illegal .jalrFunct3
  else if fieldOpcode w = 0b1100011#7 then decodeBranch w
  else if fieldOpcode w = 0b0000011#7 then decodeLoad w
  else if fieldOpcode w = 0b0100011#7 then decodeStore w
  else if fieldOpcode w = 0b0010011#7 then decodeOpImm extra w
  else if fieldOpcode w = 0b0110011#7 then decodeOp w
  else if fieldOpcode w = 0b1110011#7 then .instr (.system (fieldRest w))
  else .illegal .opcode

/-! ## Bytes: an instruction word is little-endian in memory (R80, 20_memory.md R56) -/

/-- The four bytes of a word, lowest address first. -/
def wordBytes (w : InstrWord) : List Byte :=
  [w.extractLsb' 0 8, w.extractLsb' 8 8, w.extractLsb' 16 8, w.extractLsb' 24 8]

/-- Decode the first four bytes of a byte string and return the rest; total on any bytes. -/
def decodeBytes (extra : Bool) : List Byte → Decoded × List Byte
  | b0 :: b1 :: b2 :: b3 :: rest => (decode extra (b3 ++ b2 ++ b1 ++ b0), rest)
  | _ => (.illegal .truncated, [])

/-- What the decoder reads from a word of the opcode table whose bits are `w`. The table lists the five
rows that exist only with OPIMM_EXTRA, so it is read with that parameter true (log 7). -/
def decodeTableWord (nbits w : Nat) : Option Instr :=
  match (decodeBytes true (wordBytes (BitVec.ofNat 32 (w % 2 ^ nbits)))).1 with
  | .instr i => some i
  | .illegal _ => none

/-! ## Encoding: the six formats of R82, and the word of each instruction -/

/-- The five bits that name a register in a word. -/
def regBits (r : Reg) : BitVec 5 := BitVec.ofFin r

def formatR (f7 : BitVec 7) (rs2 rs1 : Reg) (f3 : BitVec 3) (rd : Reg) (op : BitVec 7) : InstrWord :=
  f7 ++ regBits rs2 ++ regBits rs1 ++ f3 ++ regBits rd ++ op

def formatI (imm : BitVec 12) (rs1 : Reg) (f3 : BitVec 3) (rd : Reg) (op : BitVec 7) : InstrWord :=
  imm ++ regBits rs1 ++ f3 ++ regBits rd ++ op

def formatS (imm : BitVec 12) (rs2 rs1 : Reg) (f3 : BitVec 3) (op : BitVec 7) : InstrWord :=
  imm.extractLsb' 5 7 ++ regBits rs2 ++ regBits rs1 ++ f3 ++ imm.extractLsb' 0 5 ++ op

def formatB (off : BitVec 13) (rs2 rs1 : Reg) (f3 : BitVec 3) (op : BitVec 7) : InstrWord :=
  off.extractLsb' 12 1 ++ off.extractLsb' 5 6 ++ regBits rs2 ++ regBits rs1 ++ f3
    ++ off.extractLsb' 1 4 ++ off.extractLsb' 11 1 ++ op

def formatU (imm20 : BitVec 20) (rd : Reg) (op : BitVec 7) : InstrWord :=
  imm20 ++ regBits rd ++ op

def formatJ (off : BitVec 21) (rd : Reg) (op : BitVec 7) : InstrWord :=
  off.extractLsb' 20 1 ++ off.extractLsb' 1 10 ++ off.extractLsb' 11 1 ++ off.extractLsb' 12 8
    ++ regBits rd ++ op

/-- The word of an instruction (R82, R89 to R95). -/
def encode : Instr → InstrWord
  | .lui rd imm20 => formatU imm20 rd 0b0110111#7
  | .auipc rd imm20 => formatU imm20 rd 0b0010111#7
  | .jal rd off => formatJ off rd 0b1101111#7
  | .jalr rd rs1 imm => formatI imm rs1 0b000#3 rd 0b1100111#7
  | .beq rs1 rs2 off => formatB off rs2 rs1 0b000#3 0b1100011#7
  | .bne rs1 rs2 off => formatB off rs2 rs1 0b001#3 0b1100011#7
  | .blt rs1 rs2 off => formatB off rs2 rs1 0b100#3 0b1100011#7
  | .bge rs1 rs2 off => formatB off rs2 rs1 0b101#3 0b1100011#7
  | .bltu rs1 rs2 off => formatB off rs2 rs1 0b110#3 0b1100011#7
  | .bgeu rs1 rs2 off => formatB off rs2 rs1 0b111#3 0b1100011#7
  | .lb rd rs1 imm => formatI imm rs1 0b000#3 rd 0b0000011#7
  | .lh rd rs1 imm => formatI imm rs1 0b001#3 rd 0b0000011#7
  | .lw rd rs1 imm => formatI imm rs1 0b010#3 rd 0b0000011#7
  | .ld rd rs1 imm => formatI imm rs1 0b011#3 rd 0b0000011#7
  | .lbu rd rs1 imm => formatI imm rs1 0b100#3 rd 0b0000011#7
  | .lhu rd rs1 imm => formatI imm rs1 0b101#3 rd 0b0000011#7
  | .lwu rd rs1 imm => formatI imm rs1 0b110#3 rd 0b0000011#7
  | .sb rs1 rs2 imm => formatS imm rs2 rs1 0b000#3 0b0100011#7
  | .sh rs1 rs2 imm => formatS imm rs2 rs1 0b001#3 0b0100011#7
  | .sw rs1 rs2 imm => formatS imm rs2 rs1 0b010#3 0b0100011#7
  | .sd rs1 rs2 imm => formatS imm rs2 rs1 0b011#3 0b0100011#7
  | .addi rd rs1 imm => formatI imm rs1 0b000#3 rd 0b0010011#7
  | .xori rd rs1 imm => formatI imm rs1 0b100#3 rd 0b0010011#7
  | .ori rd rs1 imm => formatI imm rs1 0b110#3 rd 0b0010011#7
  | .andi rd rs1 imm => formatI imm rs1 0b111#3 rd 0b0010011#7
  | .add rd rs1 rs2 => formatR 0b0000000#7 rs2 rs1 0b000#3 rd 0b0110011#7
  | .sub rd rs1 rs2 => formatR 0b0100000#7 rs2 rs1 0b000#3 rd 0b0110011#7
  | .xor rd rs1 rs2 => formatR 0b0000000#7 rs2 rs1 0b100#3 rd 0b0110011#7
  | .or rd rs1 rs2 => formatR 0b0000000#7 rs2 rs1 0b110#3 rd 0b0110011#7
  | .and rd rs1 rs2 => formatR 0b0000000#7 rs2 rs1 0b111#3 rd 0b0110011#7
  | .halt => 0#32
  | .system rest => rest ++ 0b1110011#7
  | .slti rd rs1 imm => formatI imm rs1 0b010#3 rd 0b0010011#7
  | .sltiu rd rs1 imm => formatI imm rs1 0b011#3 rd 0b0010011#7
  | .slli rd rs1 shamt => formatI (0b000000#6 ++ shamt) rs1 0b001#3 rd 0b0010011#7
  | .srli rd rs1 shamt => formatI (0b000000#6 ++ shamt) rs1 0b101#3 rd 0b0010011#7
  | .srai rd rs1 shamt => formatI (0b010000#6 ++ shamt) rs1 0b101#3 rd 0b0010011#7

/-! ## The opcode table: match, mask and condition of each row of spec/opcode_table.json -/

/-- One row: the bits that select the instruction (R101), their values, and whether the row carries the
table's `condition` key. -/
structure TableRow where
  pattern : InstrWord
  mask : InstrWord
  extraOnly : Bool := false
  deriving DecidableEq, Repr

/-- The row of an instruction. -/
def Instr.row : Instr → TableRow
  | .lui _ _ => { pattern := 0x00000037#32, mask := 0x0000007F#32 }
  | .auipc _ _ => { pattern := 0x00000017#32, mask := 0x0000007F#32 }
  | .jal _ _ => { pattern := 0x0000006F#32, mask := 0x0000007F#32 }
  | .jalr _ _ _ => { pattern := 0x00000067#32, mask := 0x0000707F#32 }
  | .beq _ _ _ => { pattern := 0x00000063#32, mask := 0x0000707F#32 }
  | .bne _ _ _ => { pattern := 0x00001063#32, mask := 0x0000707F#32 }
  | .blt _ _ _ => { pattern := 0x00004063#32, mask := 0x0000707F#32 }
  | .bge _ _ _ => { pattern := 0x00005063#32, mask := 0x0000707F#32 }
  | .bltu _ _ _ => { pattern := 0x00006063#32, mask := 0x0000707F#32 }
  | .bgeu _ _ _ => { pattern := 0x00007063#32, mask := 0x0000707F#32 }
  | .lb _ _ _ => { pattern := 0x00000003#32, mask := 0x0000707F#32 }
  | .lh _ _ _ => { pattern := 0x00001003#32, mask := 0x0000707F#32 }
  | .lw _ _ _ => { pattern := 0x00002003#32, mask := 0x0000707F#32 }
  | .ld _ _ _ => { pattern := 0x00003003#32, mask := 0x0000707F#32 }
  | .lbu _ _ _ => { pattern := 0x00004003#32, mask := 0x0000707F#32 }
  | .lhu _ _ _ => { pattern := 0x00005003#32, mask := 0x0000707F#32 }
  | .lwu _ _ _ => { pattern := 0x00006003#32, mask := 0x0000707F#32 }
  | .sb _ _ _ => { pattern := 0x00000023#32, mask := 0x0000707F#32 }
  | .sh _ _ _ => { pattern := 0x00001023#32, mask := 0x0000707F#32 }
  | .sw _ _ _ => { pattern := 0x00002023#32, mask := 0x0000707F#32 }
  | .sd _ _ _ => { pattern := 0x00003023#32, mask := 0x0000707F#32 }
  | .addi _ _ _ => { pattern := 0x00000013#32, mask := 0x0000707F#32 }
  | .xori _ _ _ => { pattern := 0x00004013#32, mask := 0x0000707F#32 }
  | .ori _ _ _ => { pattern := 0x00006013#32, mask := 0x0000707F#32 }
  | .andi _ _ _ => { pattern := 0x00007013#32, mask := 0x0000707F#32 }
  | .add _ _ _ => { pattern := 0x00000033#32, mask := 0xFE00707F#32 }
  | .sub _ _ _ => { pattern := 0x40000033#32, mask := 0xFE00707F#32 }
  | .xor _ _ _ => { pattern := 0x00004033#32, mask := 0xFE00707F#32 }
  | .or _ _ _ => { pattern := 0x00006033#32, mask := 0xFE00707F#32 }
  | .and _ _ _ => { pattern := 0x00007033#32, mask := 0xFE00707F#32 }
  | .halt => { pattern := 0x00000000#32, mask := 0xFFFFFFFF#32 }
  | .system _ => { pattern := 0x00000073#32, mask := 0x0000007F#32 }
  | .slti _ _ _ => { pattern := 0x00002013#32, mask := 0x0000707F#32, extraOnly := true }
  | .sltiu _ _ _ => { pattern := 0x00003013#32, mask := 0x0000707F#32, extraOnly := true }
  | .slli _ _ _ => { pattern := 0x00001013#32, mask := 0xFC00707F#32, extraOnly := true }
  | .srli _ _ _ => { pattern := 0x00005013#32, mask := 0xFC00707F#32, extraOnly := true }
  | .srai _ _ _ => { pattern := 0x40005013#32, mask := 0xFC00707F#32, extraOnly := true }

/-- One instruction of each row, in the table's order. -/
def tableInstrs : List Instr := [
  .lui 0 0, .auipc 0 0, .jal 0 0, .jalr 0 0 0,
  .beq 0 0 0, .bne 0 0 0, .blt 0 0 0, .bge 0 0 0, .bltu 0 0 0, .bgeu 0 0 0,
  .lb 0 0 0, .lh 0 0 0, .lw 0 0 0, .ld 0 0 0, .lbu 0 0 0, .lhu 0 0 0, .lwu 0 0 0,
  .sb 0 0 0, .sh 0 0 0, .sw 0 0 0, .sd 0 0 0,
  .addi 0 0 0, .xori 0 0 0, .ori 0 0 0, .andi 0 0 0,
  .add 0 0 0, .sub 0 0 0, .xor 0 0 0, .or 0 0 0, .and 0 0 0,
  .halt, .system 0,
  .slti 0 0 0, .sltiu 0 0 0, .slli 0 0 0, .srli 0 0 0, .srai 0 0 0]

/-- The opcode table as rows. -/
def opcodeTable : List TableRow := tableInstrs.map Instr.row

/-- A word has a row's bits. -/
abbrev TableRow.Matches (r : TableRow) (w : InstrWord) : Prop := w &&& r.mask = r.pattern

end Sys2Proof
end

