-- ==== Sys2Proof/Config.lean ====
section
/-! DEFINITION. The parameters of the hardware, 00_scope.md R6 and R7, 10_state.md R32. `Config` is what
every step consults and no step changes; `Boot` is what reset alone reads. Both are plain data: the model
is one machine for every value of them, and no statement fixes a value unless it says so. -/

namespace Sys2Proof

/-- The run configuration of R6. The defaults are the ones R6 prints. The widths are decision D12's:
MEM_BASE and HALT_ADDR are 64-bit, MEM_SIZE and MAX_STEPS are natural numbers. -/
structure Config where
  /-- MEM_BASE, the virtual address of byte 0 of the memory image. -/
  memBase : Word := 0x80000000#64
  /-- MEM_SIZE, the length of the memory image in bytes. -/
  memSize : Nat := 65536
  /-- MAX_STEPS, the step budget. -/
  maxSteps : Nat := 5000000
  /-- HALT_ADDR, the optional pc value that ends the run cleanly. -/
  haltAddr : Option Word := none
  /-- OPIMM_EXTRA, whether SLTI, SLTIU, SLLI, SRLI and SRAI exist (decision D1). -/
  opimmExtra : Bool := false
  deriving DecidableEq, Repr

/-- R6's default configuration. -/
def Config.default : Config := {}

/-- The parameters that only reset reads: ENTRY, SP_INIT and MEM_INIT of R6. -/
structure Boot where
  /-- ENTRY, the pc after reset. R6 gives no default; DESIGN CHOICE (log 4): the default MEM_BASE. -/
  entry : Word := 0x80000000#64
  /-- SP_INIT, register 2 after reset; R6's default is 0 (decision D9). -/
  spInit : Word := 0#64
  /-- MEM_INIT as the list of its nonzero bytes by virtual address; every other byte is zero (R41). -/
  memInit : List Host.Cell := []
  deriving DecidableEq, Repr

/-- The boot parameters of `State.reset`: nothing loaded. -/
def Boot.default : Boot := {}

end Sys2Proof
end

