-- ==== Sys2Proof/Machine/State.lean ====
section
/-! DEFINITION. The state of the cc-notes RV64I core, 10_state.md R20: 32 registers, the pc, the memory
image, the run status and the step counter, and beside them the configuration sampled at reset (R32).
A fault of this hardware is a value of the run status, recorded with its information (60_exceptions.md
R205, R207): the step that raises it answers a NEXT state (log 2). -/

namespace Sys2Proof.Machine

/-- The widths of a data access, in the spec's terms 1, 2, 4 or 8 bytes (20_memory.md R58). -/
inductive Width where
  | byte | half | word | double
  deriving DecidableEq, Repr

/-- The nine fault kinds of R205, each with the information R207 records beside the pc and the step count.
They are values of the run status; no meaning of this model answers the outcome `fault`, because the spec
describes what each of them leaves, and a next state says that (log 2: safe). -/
inductive Fault where
  /-- Raised by step 0 of R112 when the budget is used up (R113). Safe: the spec's own stop. -/
  | stepBudgetExhausted
  /-- Raised by the fetch when the pc is not a multiple of 4 (R115). Safe: the spec's own stop. -/
  | fetchMisaligned (addr : Word)
  /-- Raised by the fetch when the word is not wholly in the window (R115). Safe: the spec's own stop. -/
  | fetchOutOfRange (addr : Word)
  /-- Raised at decode for a word without a handler (R197). Safe: the spec's own stop. -/
  | illegalInstruction (pc : Word) (word : InstrWord)
  /-- Raised by every SYSTEM word (R196). Safe: the spec's own stop. -/
  | unsupported (pc : Word) (word : InstrWord)
  /-- Raised by a load at an address that is no multiple of its width (R53). Safe: the spec's own stop. -/
  | loadMisaligned (addr : Word) (width : Width)
  /-- Raised by a load whose bytes are not all in the window (R53). Safe: the spec's own stop. -/
  | loadOutOfRange (addr : Word) (width : Width)
  /-- Raised by a store at an address that is no multiple of its width (R54). Safe: the spec's own stop. -/
  | storeMisaligned (addr : Word) (width : Width)
  /-- Raised by a store whose bytes are not all in the window (R54). Safe: the spec's own stop. -/
  | storeOutOfRange (addr : Word) (width : Width)
  deriving DecidableEq, Repr

/-- Why the model has no meaning for an instruction. -/
inductive Refusal where
  /-- Raised by an arm of `exec` whose instruction has no meaning yet; no arm of this model does. Safe:
  the model stops where the hardware may go on. -/
  | notModelled (mnemonic : String)
  deriving DecidableEq, Repr

/-- The run status (R35): RUNNING, the two clean halts of R208, or a fault. -/
inductive Status where
  | running
  | haltAddr
  | haltZero
  | fault (kind : Fault)
  deriving DecidableEq, Repr

/-- The memory image as the list of its nonzero bytes, keyed by virtual address; `Memory.wf` in
Machine/Ops.lean is its canonical form (log 6). -/
abbrev Memory := List Host.Cell

/-- The whole state (R20), and the configuration sampled at reset (R32, log 1). -/
structure State where
  /-- the 32 general registers; register 0 is forced to zero at the end of every step (R22) -/
  regs : Vector Word 32
  /-- the program counter (R27) -/
  pc : Word
  /-- the memory image (R37) -/
  mem : Memory
  /-- the run status (R35) -/
  status : Status
  /-- the steps completed without ending the run (R36) -/
  steps : Nat
  /-- the configuration, which no step changes (R7) -/
  cfg : Config
  deriving DecidableEq, Repr

/-- The state after reset for any parameters: 70_reset_and_hazards.md R235, 10_state.md R38 to R42. -/
def State.boot (c : Config) (b : Boot) : State where
  regs := (Vector.replicate 32 0#64).set 2 b.spInit
  pc := b.entry
  mem := b.memInit
  status := .running
  steps := 0
  cfg := c

/-- The machine right after reset with the default parameters and nothing loaded (log 4, log 5). -/
def State.reset : State := State.boot Config.default Boot.default

end Sys2Proof.Machine
end

