-- ==== Sys2Proof/Machine/Ops.lean ====
section
/-! DEFINITION. The named operations over registers, memory and the run status that every meaning is
written with. -/

namespace Sys2Proof.Machine

/-! ## The memory image -/

/-- What an address with no entry reads as: memory that was not loaded or stored to is zero (R41). -/
def Memory.unlisted : Byte := 0#8

/-- The canonical form: addresses strictly rising, and no entry equal to what an unlisted address reads
as, so that equal memories are equal lists. -/
abbrev Memory.wf (m : Memory) : Prop :=
  m.Pairwise (fun c d => c.1 < d.1) ∧ ∀ c ∈ m, c.2 ≠ Memory.unlisted

/-- The byte at a virtual address. -/
def Memory.read : Memory → Nat → Byte
  | [], _ => Memory.unlisted
  | (k, b) :: rest, a => if k = a then b else Memory.read rest a

/-- An entry, unless it is what an unlisted address reads as. -/
def Memory.entry (a : Nat) (b : Byte) (rest : Memory) : Memory :=
  if b = Memory.unlisted then rest else (a, b) :: rest

/-- Write one byte, keeping the canonical form. -/
def Memory.write : Memory → Nat → Byte → Memory
  | [], a, b => Memory.entry a b []
  | (k, c) :: rest, a, b =>
    if a < k then Memory.entry a b ((k, c) :: rest)
    else if a = k then Memory.entry a b rest
    else (k, c) :: Memory.write rest a b

/-- The little-endian value of `n` bytes (R53: the byte at the lowest address is the least significant). -/
def Memory.readLE (m : Memory) (a : Nat) : Nat → Nat
  | 0 => 0
  | n + 1 => (m.read a).toNat + 256 * Memory.readLE m (a + 1) n

/-- Write the low `n` bytes of a value, little-endian (R54). -/
def Memory.writeLE (m : Memory) (a : Nat) : Nat → Word → Memory
  | 0, _ => m
  | n + 1, v => Memory.writeLE (m.write a (v.setWidth 8)) (a + 1) n (v >>> 8)

/-! ## The access check (R53 to R55) -/

/-- The number of bytes of a width (R58). -/
def Width.bytes : Width → Nat
  | .byte => 1
  | .half => 2
  | .word => 4
  | .double => 8

/-- The virtual address is not a multiple of the access's width (R57). -/
abbrev misaligned (addr : Word) (n : Nat) : Prop := addr.toNat % n ≠ 0

/-- The `n` bytes at `addr` are not all in the window, over the unbounded integers: below the base, or
beyond the end (R53 to R55, decision D12). -/
abbrev State.outside (s : State) (addr : Word) (n : Nat) : Prop :=
  addr.toNat < s.cfg.memBase.toNat ∨ addr.toNat - s.cfg.memBase.toNat + n > s.cfg.memSize

/-- `Fetch32(addr)` (R55). -/
def fetch32 (s : State) (addr : Word) : Except Fault InstrWord :=
  if misaligned addr 4 then .error (.fetchMisaligned addr)
  else if s.outside addr 4 then .error (.fetchOutOfRange addr)
  else .ok (BitVec.ofNat 32 (s.mem.readLE addr.toNat 4))

/-- `MemRead(addr, n)` (R53), its `8n`-bit result as a zero-extended 64-bit pattern. -/
def memRead (s : State) (addr : Word) (w : Width) : Except Fault Word :=
  if misaligned addr w.bytes then .error (.loadMisaligned addr w)
  else if s.outside addr w.bytes then .error (.loadOutOfRange addr w)
  else .ok (BitVec.ofNat 64 (s.mem.readLE addr.toNat w.bytes))

/-- `MemWrite(addr, n, v)` (R54): every check comes before the first byte is written. -/
def memWrite (s : State) (addr : Word) (w : Width) (v : Word) : Except Fault State :=
  if misaligned addr w.bytes then .error (.storeMisaligned addr w)
  else if s.outside addr w.bytes then .error (.storeOutOfRange addr w)
  else .ok { s with mem := s.mem.writeLE addr.toNat w.bytes v }

/-! ## Registers -/

/-- `x[r]` as it stands (R11). -/
def State.readReg (s : State) (r : Reg) : Word := s.regs[r]

/-- `x[rd] <- v`; a write of register 0 is performed and undone by `forceX0` (R11, R22). -/
def State.writeReg (s : State) (rd : Reg) (v : Word) : State := { s with regs := s.regs.set rd v }

/-- Step 7 of R112: force register 0 to zero (R120). -/
def State.forceX0 (s : State) : State := { s with regs := s.regs.set 0 0#64 }

/-! ## The end of a step -/

/-- The default next pc, `pc + 4` (R118); also the link value of JAL and JALR. -/
def State.pcPlus4 (s : State) : Word := s.pc + 4#64

/-- Step 8 of R112: commit the pc and count the step (R121). -/
def State.commit (s : State) (nextPc : Word) : State := { s with pc := nextPc, steps := s.steps + 1 }

/-- Steps 7 and 8: the end of every step that does not end the run. -/
def State.retire (s : State) (nextPc : Word) : State := (s.forceX0).commit nextPc

/-- The end of an instruction that writes `x[rd]`: the register, then steps 7 and 8 (R124). -/
def State.retireReg (s : State) (rd : Reg) (v nextPc : Word) : State :=
  (s.writeReg rd v).retire nextPc

/-- End the run: the status is written and nothing else changes (R123). -/
def State.stop (s : State) (st : Status) : State := { s with status := st }

/-- Taking a fault, which is the whole of exception entry on this hardware: the kind and its record go
to the status; nothing is saved, no mode changes, the pc is not redirected (R211). There is no return
from it (R212). -/
def State.raise (s : State) (k : Fault) : State := s.stop (.fault k)

/-! ## What the host sees (60_exceptions.md R206, R220) -/

/-- The numeric code of a status (R206, decision D10). -/
def Status.code : Status → Nat
  | .running => 0
  | .haltAddr => 1
  | .haltZero => 2
  | .fault .stepBudgetExhausted => 16
  | .fault (.fetchMisaligned _) => 17
  | .fault (.fetchOutOfRange _) => 18
  | .fault (.illegalInstruction _ _) => 19
  | .fault (.unsupported _ _) => 20
  | .fault (.loadMisaligned _ _) => 21
  | .fault (.loadOutOfRange _ _) => 22
  | .fault (.storeMisaligned _ _) => 23
  | .fault (.storeOutOfRange _ _) => 24

/-- The process exit status that the Run Driver maps a terminal status to (R220, log 22). -/
def Status.exitStatus : Status → Option Nat
  | .running => none
  | .haltAddr => some 0
  | .haltZero => some 0
  | .fault _ => some 1

end Sys2Proof.Machine
end

