-- ==== Sys2Proof/Machine/Operands.lean ====
section
/-! DEFINITION. Extension (00_scope.md R10), the five immediates as 64-bit values (30_encoding.md R83 to
R87), and the address and target sums. -/

namespace Sys2Proof.Machine

/-- `sext_N(v)` of R10. -/
def sext (n : Nat) (v : Word) : Word := (v.setWidth n).signExtend 64

/-- `zext_N(v)` of R10. -/
def zext (n : Nat) (v : Word) : Word := (v.setWidth n).setWidth 64

/-- `imm_i` (R83). -/
def immI (imm : BitVec 12) : Word := imm.signExtend 64

/-- `imm_s` (R84). -/
def immS (imm : BitVec 12) : Word := imm.signExtend 64

/-- `imm_b` (R85). -/
def immB (off : BitVec 13) : Word := off.signExtend 64

/-- `imm_u` (R86): the field at bits 31:12, sign-extended from bit 31 (conflict C1). -/
def immU (imm20 : BitVec 20) : Word := (imm20 ++ 0#12 : BitVec 32).signExtend 64

/-- `imm_j` (R87). -/
def immJ (off : BitVec 21) : Word := off.signExtend 64

/-- The effective address of a load: base plus offset, modulo 2^64 (R63, R150). -/
def loadAddr (s : State) (rs1 : Reg) (imm : BitVec 12) : Word := s.readReg rs1 + immI imm

/-- The effective address of a store (R63, R160). -/
def storeAddr (s : State) (rs1 : Reg) (imm : BitVec 12) : Word := s.readReg rs1 + immS imm

/-- The target of JALR: the sum with bit 0 cleared, from the value `x[rs1]` has at the start of the step
(R136, decision D5, log 10). -/
def jalrTarget (s : State) (rs1 : Reg) (imm : BitVec 12) : Word :=
  (s.readReg rs1 + immI imm) &&& 0xFFFFFFFFFFFFFFFE#64

end Sys2Proof.Machine
end

