-- ==== Sys2Proof/Machine/Branches.lean ====
section
/-! DEFINITION. The six conditional branches, 43_branches.md. -/

namespace Sys2Proof.Machine

/-- The common rule R140: the next pc is `pc + imm_b` when the condition holds, else `pc + 4`; no register
and no memory is written. -/
def branchIf (taken : Bool) (off : BitVec 13) (s : State) : State :=
  s.retire (if taken then s.pc + immB off else s.pcPlus4)

/-- R141: taken when the patterns are equal. -/
def execBeq (rs1 rs2 : Reg) (off : BitVec 13) (s : State) : Host.Outcome State Fault Refusal :=
  .next (branchIf (equalWords (s.readReg rs1) (s.readReg rs2)) off s)

/-- R142: taken when the patterns differ. -/
def execBne (rs1 rs2 : Reg) (off : BitVec 13) (s : State) : Host.Outcome State Fault Refusal :=
  .next (branchIf (!equalWords (s.readReg rs1) (s.readReg rs2)) off s)

/-- R143: taken when less than, signed. -/
def execBlt (rs1 rs2 : Reg) (off : BitVec 13) (s : State) : Host.Outcome State Fault Refusal :=
  .next (branchIf (lessSigned (s.readReg rs1) (s.readReg rs2)) off s)

/-- R144: taken when greater or equal, signed. -/
def execBge (rs1 rs2 : Reg) (off : BitVec 13) (s : State) : Host.Outcome State Fault Refusal :=
  .next (branchIf (!lessSigned (s.readReg rs1) (s.readReg rs2)) off s)

/-- R145: taken when less than, unsigned. -/
def execBltu (rs1 rs2 : Reg) (off : BitVec 13) (s : State) : Host.Outcome State Fault Refusal :=
  .next (branchIf (lessUnsigned (s.readReg rs1) (s.readReg rs2)) off s)

/-- R146: taken when greater or equal, unsigned. -/
def execBgeu (rs1 rs2 : Reg) (off : BitVec 13) (s : State) : Host.Outcome State Fault Refusal :=
  .next (branchIf (!lessUnsigned (s.readReg rs1) (s.readReg rs2)) off s)

end Sys2Proof.Machine
end

