-- ==== Sys2Proof/Machine/Jumps.lean ====
section
/-! DEFINITION. JAL and JALR, 42_jumps.md. The target is not checked here; the next fetch checks it
(R137). -/

namespace Sys2Proof.Machine

/-- R135: `x[rd] <- pc + 4`, next pc `pc + imm_j`. -/
def execJal (rd : Reg) (off : BitVec 21) (s : State) : Host.Outcome State Fault Refusal :=
  .next (s.retireReg rd s.pcPlus4 (s.pc + immJ off))

/-- R136: `x[rd] <- pc + 4`, next pc `(x[rs1] + imm_i)` with bit 0 cleared, `x[rs1]` as it was at the
start of the step also when `rd = rs1` (R24). -/
def execJalr (rd rs1 : Reg) (imm : BitVec 12) (s : State) : Host.Outcome State Fault Refusal :=
  .next (s.retireReg rd s.pcPlus4 (jalrTarget s rs1 imm))

end Sys2Proof.Machine
end

