-- ==== Sys2Proof/Machine/Loads.lean ====
section
/-! DEFINITION. The seven loads, 44_loads.md. -/

namespace Sys2Proof.Machine

/-- The common rule R150: one `MemRead` at `x[rs1] + imm_i`, then the extended value to `x[rd]`; a fault
writes no register and does not advance the pc. -/
def loadWith (w : Width) (ext : Word → Word) (rd rs1 : Reg) (imm : BitVec 12) (s : State) : State :=
  match memRead s (loadAddr s rs1 imm) w with
  | .error k => s.raise k
  | .ok v => s.retireReg rd (ext v) s.pcPlus4

/-- R151: one byte, sign-extended. -/
def execLb (rd rs1 : Reg) (imm : BitVec 12) (s : State) : Host.Outcome State Fault Refusal :=
  .next (loadWith .byte (sext 8) rd rs1 imm s)

/-- R152: two bytes, sign-extended. -/
def execLh (rd rs1 : Reg) (imm : BitVec 12) (s : State) : Host.Outcome State Fault Refusal :=
  .next (loadWith .half (sext 16) rd rs1 imm s)

/-- R153: four bytes, sign-extended. -/
def execLw (rd rs1 : Reg) (imm : BitVec 12) (s : State) : Host.Outcome State Fault Refusal :=
  .next (loadWith .word (sext 32) rd rs1 imm s)

/-- R154: eight bytes, as they are. -/
def execLd (rd rs1 : Reg) (imm : BitVec 12) (s : State) : Host.Outcome State Fault Refusal :=
  .next (loadWith .double id rd rs1 imm s)

/-- R155: one byte, zero-extended. -/
def execLbu (rd rs1 : Reg) (imm : BitVec 12) (s : State) : Host.Outcome State Fault Refusal :=
  .next (loadWith .byte (zext 8) rd rs1 imm s)

/-- R156: two bytes, zero-extended. -/
def execLhu (rd rs1 : Reg) (imm : BitVec 12) (s : State) : Host.Outcome State Fault Refusal :=
  .next (loadWith .half (zext 16) rd rs1 imm s)

/-- R157: four bytes, zero-extended. -/
def execLwu (rd rs1 : Reg) (imm : BitVec 12) (s : State) : Host.Outcome State Fault Refusal :=
  .next (loadWith .word (zext 32) rd rs1 imm s)

end Sys2Proof.Machine
end

