-- ==== Sys2Proof/Machine/Op.lean ====
section
/-! DEFINITION. The register-register operations, 47_op.md. -/

namespace Sys2Proof.Machine

/-- The common rule R185: `x[rd] <- x[rs1] OP x[rs2]`, both read at the start of the step. -/
def opWith (op : Word → Word → Word) (rd rs1 rs2 : Reg) (s : State) : State :=
  s.retireReg rd (op (s.readReg rs1) (s.readReg rs2)) s.pcPlus4

/-- R186: addition modulo 2^64. -/
def execAdd (rd rs1 rs2 : Reg) (s : State) : Host.Outcome State Fault Refusal :=
  .next (opWith (· + ·) rd rs1 rs2 s)

/-- R187: subtraction modulo 2^64. -/
def execSub (rd rs1 rs2 : Reg) (s : State) : Host.Outcome State Fault Refusal :=
  .next (opWith (· - ·) rd rs1 rs2 s)

/-- R188: bitwise exclusive or. -/
def execXor (rd rs1 rs2 : Reg) (s : State) : Host.Outcome State Fault Refusal :=
  .next (opWith (· ^^^ ·) rd rs1 rs2 s)

/-- R189: bitwise or. -/
def execOr (rd rs1 rs2 : Reg) (s : State) : Host.Outcome State Fault Refusal :=
  .next (opWith (· ||| ·) rd rs1 rs2 s)

/-- R190: bitwise and. -/
def execAnd (rd rs1 rs2 : Reg) (s : State) : Host.Outcome State Fault Refusal :=
  .next (opWith (· &&& ·) rd rs1 rs2 s)

end Sys2Proof.Machine
end

