-- ==== Sys2Proof/Machine/OpImm.lean ====
section
/-! DEFINITION. The register-immediate operations, 46_op_imm.md. The five of R176 to R180 are reached only
when OPIMM_EXTRA is true, because the decoder reads their words as instructions only then (log 7). -/

namespace Sys2Proof.Machine

/-- The common rule R170: `x[rd] <- x[rs1] OP imm_i`, the immediate sign-extended for every operation. -/
def opImmWith (op : Word → Word → Word) (rd rs1 : Reg) (imm : BitVec 12) (s : State) : State :=
  s.retireReg rd (op (s.readReg rs1) (immI imm)) s.pcPlus4

/-- The shifts: `x[rd] <- x[rs1]` shifted by the 6-bit amount (R178 to R180). -/
def shiftImmWith (op : Word → Nat → Word) (rd rs1 : Reg) (shamt : BitVec 6) (s : State) : State :=
  s.retireReg rd (op (s.readReg rs1) shamt.toNat) s.pcPlus4

/-- R171: addition modulo 2^64. -/
def execAddi (rd rs1 : Reg) (imm : BitVec 12) (s : State) : Host.Outcome State Fault Refusal :=
  .next (opImmWith (· + ·) rd rs1 imm s)

/-- R172: bitwise exclusive or. -/
def execXori (rd rs1 : Reg) (imm : BitVec 12) (s : State) : Host.Outcome State Fault Refusal :=
  .next (opImmWith (· ^^^ ·) rd rs1 imm s)

/-- R173: bitwise or. -/
def execOri (rd rs1 : Reg) (imm : BitVec 12) (s : State) : Host.Outcome State Fault Refusal :=
  .next (opImmWith (· ||| ·) rd rs1 imm s)

/-- R174: bitwise and. -/
def execAndi (rd rs1 : Reg) (imm : BitVec 12) (s : State) : Host.Outcome State Fault Refusal :=
  .next (opImmWith (· &&& ·) rd rs1 imm s)

/-- R176: 1 when less than the immediate, signed, else 0. -/
def execSlti (rd rs1 : Reg) (imm : BitVec 12) (s : State) : Host.Outcome State Fault Refusal :=
  .next (opImmWith (fun a b => boolWord (lessSigned a b)) rd rs1 imm s)

/-- R177: 1 when less than the sign-extended immediate read as unsigned, else 0. -/
def execSltiu (rd rs1 : Reg) (imm : BitVec 12) (s : State) : Host.Outcome State Fault Refusal :=
  .next (opImmWith (fun a b => boolWord (lessUnsigned a b)) rd rs1 imm s)

/-- R178: shift left, zeros shifted in. -/
def execSlli (rd rs1 : Reg) (shamt : BitVec 6) (s : State) : Host.Outcome State Fault Refusal :=
  .next (shiftImmWith (fun a n => a <<< n) rd rs1 shamt s)

/-- R179: shift right, zeros shifted in. -/
def execSrli (rd rs1 : Reg) (shamt : BitVec 6) (s : State) : Host.Outcome State Fault Refusal :=
  .next (shiftImmWith (fun a n => a >>> n) rd rs1 shamt s)

/-- R180: shift right, copies of bit 63 shifted in. -/
def execSrai (rd rs1 : Reg) (shamt : BitVec 6) (s : State) : Host.Outcome State Fault Refusal :=
  .next (shiftImmWith (fun a n => a.sshiftRight n) rd rs1 shamt s)

end Sys2Proof.Machine
end

