-- ==== Sys2Proof/Machine/Stores.lean ====
section
/-! DEFINITION. The four stores, 45_stores.md. -/

namespace Sys2Proof.Machine

/-- The common rule R160: one `MemWrite` of `x[rs2]` at `x[rs1] + imm_s`; no register is written; a fault
writes no byte and does not advance the pc. -/
def storeWith (w : Width) (rs1 rs2 : Reg) (imm : BitVec 12) (s : State) : State :=
  match memWrite s (storeAddr s rs1 imm) w (s.readReg rs2) with
  | .error k => s.raise k
  | .ok t => t.retire s.pcPlus4

/-- R161: the low byte. -/
def execSb (rs1 rs2 : Reg) (imm : BitVec 12) (s : State) : Host.Outcome State Fault Refusal :=
  .next (storeWith .byte rs1 rs2 imm s)

/-- R162: the low two bytes. -/
def execSh (rs1 rs2 : Reg) (imm : BitVec 12) (s : State) : Host.Outcome State Fault Refusal :=
  .next (storeWith .half rs1 rs2 imm s)

/-- R163: the low four bytes. -/
def execSw (rs1 rs2 : Reg) (imm : BitVec 12) (s : State) : Host.Outcome State Fault Refusal :=
  .next (storeWith .word rs1 rs2 imm s)

/-- R164: all eight bytes. -/
def execSd (rs1 rs2 : Reg) (imm : BitVec 12) (s : State) : Host.Outcome State Fault Refusal :=
  .next (storeWith .double rs1 rs2 imm s)

end Sys2Proof.Machine
end

