-- ==== Sys2Proof/Machine/System.lean ====
section
/-! DEFINITION. The zero-word halt and the SYSTEM class, 48_system_illegal_halt.md. A word that is no
instruction (R197) is stopped by the fetch and decode of Machine/Fetch.lean. -/

namespace Sys2Proof.Machine

/-- R195: the clean halt; nothing but the status changes. -/
def execHalt (s : State) : Host.Outcome State Fault Refusal :=
  .next (s.stop .haltZero)

/-- R196: the fault Unsupported(pc, word), for every SYSTEM word. -/
def execSystem (rest : BitVec 25) (s : State) : Host.Outcome State Fault Refusal :=
  .next (s.raise (.unsupported s.pc (encode (.system rest))))

end Sys2Proof.Machine
end

