-- ==== Sys2Proof/Machine/Upper.lean ====
section
/-! DEFINITION. LUI and AUIPC, 41_upper_immediate.md. -/

namespace Sys2Proof.Machine

/-- R130: `x[rd] <- imm_u`. -/
def execLui (rd : Reg) (imm20 : BitVec 20) (s : State) : Host.Outcome State Fault Refusal :=
  .next (s.retireReg rd (immU imm20) s.pcPlus4)

/-- R131: `x[rd] <- pc + imm_u`. -/
def execAuipc (rd : Reg) (imm20 : BitVec 20) (s : State) : Host.Outcome State Fault Refusal :=
  .next (s.retireReg rd (s.pc + immU imm20) s.pcPlus4)

end Sys2Proof.Machine
end

