-- ==== Sys2Proof/Machine/Fetch.lean ====
section
/-! DEFINITION. Steps 0 to 4 of 40_sequencer.md R112: the status, the budget, the halt address, the fetch
and the decode, in the order of 60_exceptions.md R210. -/

namespace Sys2Proof.Machine

/-- What the first half of a step comes to. -/
inductive Fetched where
  /-- the step is over, in this state -/
  | done (t : State)
  /-- this instruction is to be executed -/
  | run (i : Instr)
  deriving DecidableEq, Repr

/-- Steps 2 to 4: fetch the word at the pc (R115), decode it (R96); a word without a handler raises
IllegalInstruction with the pc and the word (R197). The zero word decodes to HALT (R116). -/
def fetchDecode (s : State) : Fetched :=
  match fetch32 s s.pc with
  | .error k => .done (s.raise k)
  | .ok w =>
    match decode s.cfg.opimmExtra w with
    | .instr i => .run i
    | .illegal _ => .done (s.raise (.illegalInstruction s.pc w))

/-- Steps 0 and 1 before them: the budget (R113, decision D7, log 12), then the halt address (R114). A
state whose status is not RUNNING stays as it is (R35, R122, log 3). -/
def beginStep (s : State) : Fetched :=
  if s.status ≠ .running then .done s
  else if s.cfg.maxSteps ≤ s.steps then .done (s.raise .stepBudgetExhausted)
  else if s.cfg.haltAddr = some s.pc then .done (s.stop .haltAddr)
  else fetchDecode s

/-- The word is an instruction only when OPIMM_EXTRA is true (R93). -/
def needsExtra (w : InstrWord) : Bool :=
  match decode false w, decode true w with
  | .illegal _, .instr _ => true
  | _, _ => false

/-- Place a word where the next step fetches: its four bytes at the pc, when they are in the window, and
OPIMM_EXTRA set for a word that exists only with it (log 5, log 7). It stands for the load of a program
from outside the machine. -/
def placeWord (s : State) (w : InstrWord) : State :=
  if s.outside s.pc 4 then s
  else
    { s with
      mem := s.mem.writeLE s.pc.toNat 4 (w.setWidth 64)
      cfg := { s.cfg with opimmExtra := s.cfg.opimmExtra || needsExtra w } }

end Sys2Proof.Machine
end

