-- ==== Sys2Proof/Machine/Step.lean ====
section
/-! DEFINITION. One step, 40_sequencer.md R112. -/

namespace Sys2Proof.Machine

/-- Steps 0 to 4 are `beginStep`; steps 5 to 8 are the instruction's meaning. -/
def step (s : State) : Host.Outcome State Fault Refusal :=
  match beginStep s with
  | .done t => .next t
  | .run i => exec i s

/-- The state with a word of the opcode table stored where `step` fetches its next instruction. -/
def State.withFetchWord (s : State) (nbits w : Nat) : State :=
  placeWord s (BitVec.ofNat 32 (w % 2 ^ nbits))

end Sys2Proof.Machine
end

