-- ==== Sys2Proof/Machine/Boot.lean ====
section
/-! DEFINITION. The boot image: the loader's postconditions on memory and entry, 70_reset_and_hazards.md
R236 and R237. The loader itself (the file, its header checks, R239) is outside the block (log 19). -/

namespace Sys2Proof.Machine

/-- A program-header entry as far as memory is concerned: its virtual address, the bytes the file holds
for it, and its size in memory (R236). -/
structure Segment where
  vaddr : Word
  bytes : List Byte
  memSize : Nat
  deriving DecidableEq, Repr

/-- The segment lies in the window, and is at least as long as its bytes (R236). -/
abbrev Segment.Fits (g : Segment) (c : Config) : Prop :=
  g.bytes.length ≤ g.memSize ∧ c.memBase.toNat ≤ g.vaddr.toNat
    ∧ g.vaddr.toNat - c.memBase.toNat + g.memSize ≤ c.memSize

/-- Write bytes at consecutive addresses. -/
def Memory.writeBytes (m : Memory) (a : Nat) : List Byte → Memory
  | [] => m
  | b :: rest => Memory.writeBytes (m.write a b) (a + 1) rest

/-- Copy the segment's bytes and zero-fill the rest of its memory size (R236). -/
def Segment.place (g : Segment) (m : Memory) : Memory :=
  m.writeBytes g.vaddr.toNat (g.bytes ++ List.replicate (g.memSize - g.bytes.length) 0#8)

/-- Place the segments in order, later ones over earlier ones; an entry of memory size zero is skipped,
and one that does not fit makes the load fail as a whole (R236, R239). -/
def loadSegments (c : Config) : List Segment → Memory → Option Memory
  | [], m => some m
  | g :: rest, m =>
    if g.memSize = 0 then loadSegments c rest m
    else if g.Fits c then loadSegments c rest (g.place m)
    else none

/-- The entry address is inside the window (R6, R40, R237). -/
abbrev entryInWindow (c : Config) (entry : Word) : Prop :=
  c.memBase.toNat ≤ entry.toNat ∧ entry.toNat < c.memBase.toNat + c.memSize

/-- The state after reset with a program loaded: memory zero-initialised, then the segments, then the
entry check; a failed load starts no run (R235 to R237). -/
def loadImage (c : Config) (spInit : Word) (segs : List Segment) (entry : Word) : Option State :=
  match loadSegments c segs [] with
  | none => none
  | some m =>
    if entryInWindow c entry then some (State.boot c { entry := entry, spInit := spInit, memInit := m })
    else none

end Sys2Proof.Machine
end

