-- ==== Sys2Proof/Safety.lean ====
section
/-! DEFINITION. The terms the statements are written in: what a completed step, a store and an ended run
look like from outside, the fields of a word by their bit positions, the invariant of every state. They
are written from the spec's text beside the model's own functions, not with them, so that a statement says
more than its own definition. -/

namespace Sys2Proof.Machine

/-! ## Outcomes -/

/-- What one step or one meaning answers. -/
abbrev Answer := Host.Outcome State Fault Refusal

/-- The step completed: the pc is the given one, the step is counted, the run goes on as it was, and the
configuration is the same (40_sequencer.md R121, 00_scope.md R7). -/
def Advanced (s t : State) (nextPc : Word) : Prop :=
  t.pc = nextPc ∧ t.steps = s.steps + 1 ∧ t.status = s.status ∧ t.cfg = s.cfg

/-- Every register is as it was, and register 0 is zero (10_state.md R22). -/
def RegsKept (s t : State) : Prop :=
  ∀ r : Reg, t.regs[r] = if r = 0 then 0#64 else s.regs[r]

/-- Register `rd` holds `v`, every other register is as it was, and register 0 is zero also when `rd` is
register 0 (10_state.md R22, R23). -/
def RegsUpdated (s t : State) (rd : Reg) (v : Word) : Prop :=
  ∀ r : Reg, t.regs[r] = if r = 0 then 0#64 else if r = rd then v else s.regs[r]

/-- Every byte of memory reads as before. -/
def MemKept (s t : State) : Prop := ∀ a : Nat, t.mem.read a = s.mem.read a

/-- The answer is a next state in which `x[rd]` holds `v`, the pc is `nextPc`, and nothing else changed but
the step count. -/
def WritesReg (o : Answer) (s : State) (rd : Reg) (v nextPc : Word) : Prop :=
  ∃ t, o = .next t ∧ RegsUpdated s t rd v ∧ MemKept s t ∧ Advanced s t nextPc

/-- The answer is a next state in which the pc is `nextPc` and nothing else changed but the step count. -/
def MovesTo (o : Answer) (s : State) (nextPc : Word) : Prop :=
  ∃ t, o = .next t ∧ RegsKept s t ∧ MemKept s t ∧ Advanced s t nextPc

/-- The answer is a next state in which the `n` bytes at `ea` are the low `n` bytes of `v`, the byte at the
lowest address the least significant, every byte outside them reads as before, and nothing else changed but
the pc, which is `pc + 4`, and the step count. -/
def StoresAt (o : Answer) (s : State) (ea : Word) (n : Nat) (v : Word) : Prop :=
  ∃ t, o = .next t ∧ RegsKept s t ∧ Advanced s t (s.pc + 4#64)
    ∧ (∀ k, k < n → t.mem.read (ea.toNat + k) = v.extractLsb' (8 * k) 8)
    ∧ (∀ a : Nat, a < ea.toNat ∨ ea.toNat + n ≤ a → t.mem.read a = s.mem.read a)

/-- The answer is a next state with this status and with everything else as it was: no register, no byte,
not the pc, not the step count (40_sequencer.md R123). -/
def EndsRun (o : Answer) (s : State) (st : Status) : Prop :=
  ∃ t, o = .next t ∧ t.status = st ∧ t.regs = s.regs ∧ t.mem = s.mem ∧ t.pc = s.pc ∧ t.steps = s.steps
    ∧ t.cfg = s.cfg

/-- The `n` bytes at `ea` all lie in the window of 20_memory.md R50. -/
def InWindow (s : State) (ea : Word) (n : Nat) : Prop :=
  s.cfg.memBase.toNat ≤ ea.toNat ∧ ea.toNat + n ≤ s.cfg.memBase.toNat + s.cfg.memSize

/-- The sum of R53: the byte at `a + k` weighs `2 ^ (8 * k)`. -/
def leValue (m : Memory) (a : Nat) : Nat → Nat
  | 0 => 0
  | n + 1 => leValue m a n + 2 ^ (8 * n) * (m.read (a + n)).toNat

/-! ## The fields of a word, as the numbers of 00_scope.md R9 -/

/-- `w[hi:lo]` read as an unsigned number (R9). -/
def bitsOf (w : InstrWord) (hi lo : Nat) : Nat := w.toNat / 2 ^ lo % 2 ^ (hi + 1 - lo)

/-- The register a five-bit field at `lo` names. -/
def regAt (w : InstrWord) (lo : Nat) : Reg := Fin.ofNat 32 (bitsOf w (lo + 4) lo)

/-- The 12 bits of the I-immediate (30_encoding.md R83). -/
def immIBits (w : InstrWord) : BitVec 12 := BitVec.ofNat 12 (bitsOf w 31 20)

/-- The 12 bits of the S-immediate (R84). -/
def immSBits (w : InstrWord) : BitVec 12 := BitVec.ofNat 12 (bitsOf w 31 25 * 2 ^ 5 + bitsOf w 11 7)

/-- The 13 bits of the B-immediate (R85). -/
def immBBits (w : InstrWord) : BitVec 13 :=
  BitVec.ofNat 13 (bitsOf w 31 31 * 2 ^ 12 + bitsOf w 7 7 * 2 ^ 11 + bitsOf w 30 25 * 2 ^ 5
    + bitsOf w 11 8 * 2)

/-- The 20-bit field of the U-immediate (R86). -/
def immUBits (w : InstrWord) : BitVec 20 := BitVec.ofNat 20 (bitsOf w 31 12)

/-- The 21 bits of the J-immediate (R87). -/
def immJBits (w : InstrWord) : BitVec 21 :=
  BitVec.ofNat 21 (bitsOf w 31 31 * 2 ^ 20 + bitsOf w 19 12 * 2 ^ 12 + bitsOf w 20 20 * 2 ^ 11
    + bitsOf w 30 21 * 2)

/-- The shift amount `w[25:20]` (46_op_imm.md R178). -/
def shamtBits (w : InstrWord) : BitVec 6 := BitVec.ofNat 6 (bitsOf w 25 20)

/-- The 64-bit pattern is the number `v` of `bits` bits read as two's complement: `v` itself, or `v - 2^bits`
from half the range on (R83); so it lies in the range of such a number. -/
def IsSignedField (bits v : Nat) (x : Word) : Prop :=
  x.toInt = (if v < 2 ^ (bits - 1) then (v : Int) else (v : Int) - 2 ^ bits) ∧
  -(2 ^ (bits - 1) : Int) ≤ x.toInt ∧ x.toInt < 2 ^ (bits - 1)

/-- Every word with these bits under this mask is, for either value of OPIMM_EXTRA, the instruction that
`f` reads from its fields. -/
def WordsAre (pattern mask : InstrWord) (f : InstrWord → Instr) : Prop :=
  ∀ (extra : Bool) (w : InstrWord), w &&& mask = pattern → decode extra w = .instr (f w)

/-- The same for the rows that exist only with OPIMM_EXTRA. -/
def WordsAreWithExtra (pattern mask : InstrWord) (f : InstrWord → Instr) : Prop :=
  ∀ w : InstrWord, w &&& mask = pattern → decode true w = .instr (f w)

/-- 48_system_illegal_halt.md R197: the parts (a) to (g) of the set of illegal words, by the numbers of the
opcode, funct3, funct7 and `inst[31:26]` fields. -/
def IllegalWord (extra : Bool) (w : InstrWord) : Prop :=
  let op := bitsOf w 6 0
  let f3 := bitsOf w 14 12
  let f7 := bitsOf w 31 25
  let f6 := bitsOf w 31 26
  w ≠ 0#32 ∧ ((op ∉ [0x37, 0x17, 0x6F, 0x67, 0x63, 0x03, 0x23, 0x13, 0x33, 0x73])
    ∨ (op = 0x67 ∧ f3 ≠ 0)
    ∨ (op = 0x63 ∧ (f3 = 2 ∨ f3 = 3))
    ∨ (op = 0x03 ∧ f3 = 7)
    ∨ (op = 0x23 ∧ 4 ≤ f3)
    ∨ (op = 0x13 ∧ extra = false ∧ (f3 = 1 ∨ f3 = 2 ∨ f3 = 3 ∨ f3 = 5))
    ∨ (op = 0x13 ∧ extra = true ∧ ((f3 = 1 ∧ f6 ≠ 0) ∨ (f3 = 5 ∧ f6 ≠ 0 ∧ f6 ≠ 16)))
    ∨ (op = 0x33 ∧ ¬(f7 = 0 ∧ (f3 = 0 ∨ f3 = 4 ∨ f3 = 6 ∨ f3 = 7)) ∧ ¬(f7 = 32 ∧ f3 = 0)))

end Sys2Proof.Machine

namespace Sys2Proof

/-! ## Which registers an instruction names (10_state.md R26) -/

/-- The register an instruction writes. -/
def Instr.dest : Instr → Option Reg
  | .lui rd _ | .auipc rd _ | .jal rd _ | .jalr rd _ _ => some rd
  | .lb rd _ _ | .lh rd _ _ | .lw rd _ _ | .ld rd _ _ | .lbu rd _ _ | .lhu rd _ _ | .lwu rd _ _ => some rd
  | .addi rd _ _ | .xori rd _ _ | .ori rd _ _ | .andi rd _ _ => some rd
  | .slti rd _ _ | .sltiu rd _ _ | .slli rd _ _ | .srli rd _ _ | .srai rd _ _ => some rd
  | .add rd _ _ | .sub rd _ _ | .xor rd _ _ | .or rd _ _ | .and rd _ _ => some rd
  | .beq _ _ _ | .bne _ _ _ | .blt _ _ _ | .bge _ _ _ | .bltu _ _ _ | .bgeu _ _ _ => none
  | .sb _ _ _ | .sh _ _ _ | .sw _ _ _ | .sd _ _ _ => none
  | .halt | .system _ => none

/-- The registers an instruction reads. -/
def Instr.sources : Instr → List Reg
  | .lui _ _ | .auipc _ _ | .jal _ _ => []
  | .jalr _ a _ => [a]
  | .lb _ a _ | .lh _ a _ | .lw _ a _ | .ld _ a _ | .lbu _ a _ | .lhu _ a _ | .lwu _ a _ => [a]
  | .addi _ a _ | .xori _ a _ | .ori _ a _ | .andi _ a _ => [a]
  | .slti _ a _ | .sltiu _ a _ | .slli _ a _ | .srli _ a _ | .srai _ a _ => [a]
  | .add _ a b | .sub _ a b | .xor _ a b | .or _ a b | .and _ a b => [a, b]
  | .beq a b _ | .bne a b _ | .blt a b _ | .bge a b _ | .bltu a b _ | .bgeu a b _ => [a, b]
  | .sb a b _ | .sh a b _ | .sw a b _ | .sd a b _ => [a, b]
  | .halt | .system _ => []

/-- The four store instructions, the only ones that write memory (20_memory.md R62). -/
def Instr.isStore : Instr → Bool
  | .sb _ _ _ | .sh _ _ _ | .sw _ _ _ | .sd _ _ _ => true
  | .lui _ _ | .auipc _ _ | .jal _ _ | .jalr _ _ _ => false
  | .beq _ _ _ | .bne _ _ _ | .blt _ _ _ | .bge _ _ _ | .bltu _ _ _ | .bgeu _ _ _ => false
  | .lb _ _ _ | .lh _ _ _ | .lw _ _ _ | .ld _ _ _ | .lbu _ _ _ | .lhu _ _ _ | .lwu _ _ _ => false
  | .addi _ _ _ | .xori _ _ _ | .ori _ _ _ | .andi _ _ _ => false
  | .slti _ _ _ | .sltiu _ _ _ | .slli _ _ _ | .srli _ _ _ | .srai _ _ _ => false
  | .add _ _ _ | .sub _ _ _ | .xor _ _ _ | .or _ _ _ | .and _ _ _ => false
  | .halt | .system _ => false

/-- The jumps and the branches, the instructions that may set a next pc other than `pc + 4` (R28). -/
def Instr.isControl : Instr → Bool
  | .jal _ _ | .jalr _ _ _ => true
  | .beq _ _ _ | .bne _ _ _ | .blt _ _ _ | .bge _ _ _ | .bltu _ _ _ | .bgeu _ _ _ => true
  | .lui _ _ | .auipc _ _ => false
  | .lb _ _ _ | .lh _ _ _ | .lw _ _ _ | .ld _ _ _ | .lbu _ _ _ | .lhu _ _ _ | .lwu _ _ _ => false
  | .sb _ _ _ | .sh _ _ _ | .sw _ _ _ | .sd _ _ _ => false
  | .addi _ _ _ | .xori _ _ _ | .ori _ _ _ | .andi _ _ _ => false
  | .slti _ _ _ | .sltiu _ _ _ | .slli _ _ _ | .srli _ _ _ | .srai _ _ _ => false
  | .add _ _ _ | .sub _ _ _ | .xor _ _ _ | .or _ _ _ | .and _ _ _ => false
  | .halt | .system _ => false

end Sys2Proof

namespace Sys2Proof.Machine

/-! ## The shapes of a meaning -/

/-- A conditional branch that is taken exactly when `cond` holds of the two registers (43_branches.md
R140). -/
def BranchesWhen (mk : Reg → Reg → BitVec 13 → Instr) (cond : Word → Word → Prop) : Prop :=
  ∀ (rs1 rs2 : Reg) (off : BitVec 13) (s : State),
    (cond s.regs[rs1] s.regs[rs2] → MovesTo (exec (mk rs1 rs2 off) s) s (s.pc + off.signExtend 64)) ∧
    (¬ cond s.regs[rs1] s.regs[rs2] → MovesTo (exec (mk rs1 rs2 off) s) s (s.pc + 4#64))

/-- A load of `n` bytes at `x[rs1] + sext_12(imm)`, aligned and in the window, that writes `ext` of their
value (44_loads.md R150). -/
def LoadsWith (mk : Reg → Reg → BitVec 12 → Instr) (n : Nat) (ext : Nat → Word) : Prop :=
  ∀ (rd rs1 : Reg) (imm : BitVec 12) (s : State),
    let ea : Word := s.regs[rs1] + imm.signExtend 64
    ea.toNat % n = 0 → InWindow s ea n →
      WritesReg (exec (mk rd rs1 imm) s) s rd (ext (leValue s.mem ea.toNat n)) (s.pc + 4#64)

/-- The faults of a load of that width (20_memory.md R53): misaligned first, then out of range. -/
def LoadFaults (mk : Reg → Reg → BitVec 12 → Instr) (w : Width) (n : Nat) : Prop :=
  ∀ (rd rs1 : Reg) (imm : BitVec 12) (s : State),
    let ea : Word := s.regs[rs1] + imm.signExtend 64
    (ea.toNat % n ≠ 0 → EndsRun (exec (mk rd rs1 imm) s) s (.fault (.loadMisaligned ea w))) ∧
    (ea.toNat % n = 0 → ¬ InWindow s ea n →
      EndsRun (exec (mk rd rs1 imm) s) s (.fault (.loadOutOfRange ea w)))

/-- A number of `bits` bits read as two's complement, as a 64-bit pattern (00_scope.md R10). -/
def signedOf (bits v : Nat) : Word :=
  BitVec.ofInt 64 (if v < 2 ^ (bits - 1) then (v : Int) else (v : Int) - 2 ^ bits)

/-- A number as a 64-bit pattern with zeros above it (R10). -/
def unsignedOf (v : Nat) : Word := BitVec.ofNat 64 v

/-- A store of the low `n` bytes of `x[rs2]` at `x[rs1] + sext_12(imm)`, aligned and in the window, in a
state whose memory is canonical (45_stores.md R160). -/
def StoresLow (mk : Reg → Reg → BitVec 12 → Instr) (n : Nat) : Prop :=
  ∀ (rs1 rs2 : Reg) (imm : BitVec 12) (s : State),
    let ea : Word := s.regs[rs1] + imm.signExtend 64
    s.mem.wf → ea.toNat % n = 0 → InWindow s ea n →
      StoresAt (exec (mk rs1 rs2 imm) s) s ea n s.regs[rs2]

/-- The faults of a store of that width (20_memory.md R54): misaligned first, then out of range. -/
def StoreFaults (mk : Reg → Reg → BitVec 12 → Instr) (w : Width) (n : Nat) : Prop :=
  ∀ (rs1 rs2 : Reg) (imm : BitVec 12) (s : State),
    let ea : Word := s.regs[rs1] + imm.signExtend 64
    (ea.toNat % n ≠ 0 → EndsRun (exec (mk rs1 rs2 imm) s) s (.fault (.storeMisaligned ea w))) ∧
    (ea.toNat % n = 0 → ¬ InWindow s ea n →
      EndsRun (exec (mk rs1 rs2 imm) s) s (.fault (.storeOutOfRange ea w)))

/-- `x[rd] <- f(x[rs1], imm)` for an instruction with an immediate operand, in every state. -/
def ComputesImm {n : Nat} (mk : Reg → Reg → BitVec n → Instr) (f : Word → BitVec n → Word) : Prop :=
  ∀ (rd rs1 : Reg) (imm : BitVec n) (s : State),
    WritesReg (exec (mk rd rs1 imm) s) s rd (f s.regs[rs1] imm) (s.pc + 4#64)

/-- `x[rd] <- f(x[rs1], x[rs2])`, in every state. -/
def ComputesReg (mk : Reg → Reg → Reg → Instr) (f : Word → Word → Word) : Prop :=
  ∀ (rd rs1 rs2 : Reg) (s : State),
    WritesReg (exec (mk rd rs1 rs2) s) s rd (f s.regs[rs1] s.regs[rs2]) (s.pc + 4#64)

/-- The load, made right after the completed store to the same address, gives `ext` of the stored register's
low `n` bytes (20_memory.md R59). -/
def RoundTrips (store load : Reg → Reg → BitVec 12 → Instr) (n : Nat) (ext : Nat → Word) : Prop :=
  ∀ (rs1 rs2 rd : Reg) (imm : BitVec 12) (s t : State),
    s.mem.wf → s.regs[(0 : Reg)] = 0#64 → exec (store rs1 rs2 imm) s = .next t → t.steps = s.steps + 1 →
    WritesReg (exec (load rd rs1 imm) t) t rd (ext (s.regs[rs2].toNat % 2 ^ (8 * n))) (t.pc + 4#64)

/-! ## The invariant -/

/-- What a terminal status says of the state is so (60_exceptions.md R205, R207, R208): the recorded pc is
the pc, the recorded word is the word there, and the recorded cause holds. -/
def RecordTrue (s : State) : Prop :=
  match s.status with
  | .running => True
  | .haltAddr => s.cfg.haltAddr = some s.pc
  | .haltZero => fetch32 s s.pc = .ok 0#32
  | .fault .stepBudgetExhausted => s.cfg.maxSteps ≤ s.steps
  | .fault (.fetchMisaligned a) => a = s.pc ∧ a.toNat % 4 ≠ 0
  | .fault (.fetchOutOfRange a) => a = s.pc ∧ a.toNat % 4 = 0 ∧ ¬ InWindow s a 4
  | .fault (.illegalInstruction p w) =>
    p = s.pc ∧ fetch32 s s.pc = .ok w ∧ IllegalWord s.cfg.opimmExtra w
  | .fault (.unsupported p w) => p = s.pc ∧ fetch32 s s.pc = .ok w ∧ bitsOf w 6 0 = 0x73
  | .fault (.loadMisaligned a n) => a.toNat % n.bytes ≠ 0
  | .fault (.loadOutOfRange a n) => a.toNat % n.bytes = 0 ∧ ¬ InWindow s a n.bytes
  | .fault (.storeMisaligned a n) => a.toNat % n.bytes ≠ 0
  | .fault (.storeOutOfRange a n) => a.toNat % n.bytes = 0 ∧ ¬ InWindow s a n.bytes

/-- Every listed byte of memory lies in the window (20_memory.md R50). -/
def MemInWindow (c : Config) (m : Memory) : Prop :=
  ∀ cell ∈ m, c.memBase.toNat ≤ cell.1 ∧ cell.1 < c.memBase.toNat + c.memSize

/-- What holds of every state a run can reach: register 0 is zero (R23), memory is canonical and lies in
the window, no more steps than the budget have completed (R113), and the status is true of the state. -/
def State.Inv (s : State) : Prop :=
  s.regs[(0 : Reg)] = 0#64 ∧ s.mem.wf ∧ MemInWindow s.cfg s.mem ∧ s.steps ≤ s.cfg.maxSteps ∧ RecordTrue s

/-- Boot parameters that a loader can produce, as far as memory is concerned (R236). -/
def BootValid (c : Config) (b : Boot) : Prop :=
  Memory.wf b.memInit ∧ MemInWindow c b.memInit

/-- The run has not ended in a fault: it goes on, or it ended cleanly (60_exceptions.md R208). -/
def State.Safe (s : State) : Prop := ∀ k, s.status ≠ .fault k

/-- The step at `s` gets past the tests that come before the fetch: it runs, has budget left, and is not at
the halt address (40_sequencer.md R112 steps 0 and 1). -/
def ReadyToFetch (s : State) : Prop :=
  s.status = .running ∧ s.steps < s.cfg.maxSteps ∧ s.cfg.haltAddr ≠ some s.pc

/-! ## The loaded image (70_reset_and_hazards.md R236) -/

/-- The segment covers the address. -/
def Segment.Covers (g : Segment) (a : Nat) : Prop := g.vaddr.toNat ≤ a ∧ a < g.vaddr.toNat + g.memSize

/-- The byte a segment puts at an address it covers: the file's byte, or zero past the file's bytes. -/
def Segment.byteAt (g : Segment) (a : Nat) : Byte := (g.bytes[a - g.vaddr.toNat]?).getD 0#8

end Sys2Proof.Machine
end

