-- ==== Sys2Proof/Certificates/Slice0/Obligations.lean ====
section
/-! DEFINITION. The statements, in the terms of Safety.lean. Each docstring names the rule of spec/ it
formalises and says which clause is a decision of the spec or a choice of the model. The numbers of the
encodings are the ones the spec prints from the standard it names (G1 to G4, decision D20, log 14). Every
window check is over the unbounded integers (decision D12, log 16). -/

open Sys2Proof Sys2Proof.Machine

/-! ## Instructions -/

/-- 41_upper_immediate.md R130. The value is the 20-bit field as a signed number times 4096, which is `imm_u`
(`Obligations.UpperImmediateOfWords`). -/
def Obligations.LuiWritesUpperImmediate : Prop :=
  ∀ (rd : Reg) (imm20 : BitVec 20) (s : State),
    WritesReg (exec (.lui rd imm20) s) s rd (BitVec.ofInt 64 (imm20.toInt * 4096)) (s.pc + 4#64)

/-- 41_upper_immediate.md R131. -/
def Obligations.AuipcAddsUpperImmediateToPc : Prop :=
  ∀ (rd : Reg) (imm20 : BitVec 20) (s : State),
    WritesReg (exec (.auipc rd imm20) s) s rd (s.pc + BitVec.ofInt 64 (imm20.toInt * 4096)) (s.pc + 4#64)

/-- 42_jumps.md R135. -/
def Obligations.JalLinksAndJumps : Prop :=
  ∀ (rd : Reg) (off : BitVec 21) (s : State),
    WritesReg (exec (.jal rd off) s) s rd (s.pc + 4#64) (s.pc + off.signExtend 64)

/-- 42_jumps.md R136. That `x[rs1]` is the value at the start of the step also when `rd = rs1` is the spec's
decision D5 (log 10). -/
def Obligations.JalrLinksAndJumps : Prop :=
  ∀ (rd rs1 : Reg) (imm : BitVec 12) (s : State),
    WritesReg (exec (.jalr rd rs1 imm) s) s rd (s.pc + 4#64)
      ((s.regs[rs1] + imm.signExtend 64) &&& 0xFFFFFFFFFFFFFFFE#64)

/-- 43_branches.md R141, R142: BEQ and BNE. -/
def Obligations.EqualityBranches : Prop :=
  BranchesWhen .beq (fun a b => a = b) ∧
  BranchesWhen .bne (fun a b => a ≠ b)

/-- 43_branches.md R143, R144: BLT and BGE, signed. -/
def Obligations.SignedBranches : Prop :=
  BranchesWhen .blt (fun a b => a.toInt < b.toInt) ∧
  BranchesWhen .bge (fun a b => a.toInt ≥ b.toInt)

/-- 43_branches.md R145, R146: BLTU and BGEU, unsigned. -/
def Obligations.UnsignedBranches : Prop :=
  BranchesWhen .bltu (fun a b => a.toNat < b.toNat) ∧
  BranchesWhen .bgeu (fun a b => a.toNat ≥ b.toNat)

/-- 44_loads.md R151 to R154: LB, LH, LW, LD. -/
def Obligations.SignedLoads : Prop :=
  LoadsWith .lb 1 (signedOf 8) ∧
  LoadsWith .lh 2 (signedOf 16) ∧
  LoadsWith .lw 4 (signedOf 32) ∧
  LoadsWith .ld 8 unsignedOf

/-- 44_loads.md R155 to R157: LBU, LHU, LWU. -/
def Obligations.UnsignedLoads : Prop :=
  LoadsWith .lbu 1 unsignedOf ∧
  LoadsWith .lhu 2 unsignedOf ∧
  LoadsWith .lwu 4 unsignedOf

/-- 20_memory.md R53: the faults of the seven loads, which write no register, whatever rd is. That the four
access kinds are told apart is the spec's decision D14 (log 24), that Misaligned comes first its decision D6
(log 11). -/
def Obligations.LoadsFaultInOrder : Prop :=
  LoadFaults .lb .byte 1 ∧ LoadFaults .lh .half 2 ∧ LoadFaults .lw .word 4 ∧ LoadFaults .ld .double 8 ∧
  LoadFaults .lbu .byte 1 ∧ LoadFaults .lhu .half 2 ∧ LoadFaults .lwu .word 4

/-- 45_stores.md R161 to R164: SB, SH, SW, SD. The store into memory is stated of states whose memory is
canonical, which `Obligations.StepKeepsInvariant` says every step keeps. -/
def Obligations.StoresWriteLowBytes : Prop :=
  StoresLow .sb 1 ∧ StoresLow .sh 2 ∧ StoresLow .sw 4 ∧ StoresLow .sd 8

/-- 20_memory.md R54: the faults of the four stores, which write no byte. The decisions are those of
`Obligations.LoadsFaultInOrder` (D6, D14; log 11, log 24). -/
def Obligations.StoresFaultInOrder : Prop :=
  StoreFaults .sb .byte 1 ∧ StoreFaults .sh .half 2 ∧ StoreFaults .sw .word 4 ∧ StoreFaults .sd .double 8

/-- 46_op_imm.md R171 to R174: ADDI, XORI, ORI, ANDI. -/
def Obligations.RegisterImmediateOperations : Prop :=
  ComputesImm .addi (fun a imm => BitVec.ofInt 64 (a.toInt + imm.toInt)) ∧
  ComputesImm .xori (fun a imm => a ^^^ imm.signExtend 64) ∧
  ComputesImm .ori (fun a imm => a ||| imm.signExtend 64) ∧
  ComputesImm .andi (fun a imm => a &&& imm.signExtend 64)

/-- 46_op_imm.md R176 to R180: SLTI, SLTIU, SLLI, SRLI, SRAI. Their existence and their effect are the spec's
decisions D1 and D18 (log 7, log 17). -/
def Obligations.OptionalImmediateOperations : Prop :=
  ComputesImm .slti (fun a imm => if a.toInt < imm.toInt then 1#64 else 0#64) ∧
  ComputesImm .sltiu (fun a imm => if a.toNat < (imm.signExtend 64).toNat then 1#64 else 0#64) ∧
  ComputesImm .slli (fun a shamt => BitVec.ofNat 64 (a.toNat * 2 ^ shamt.toNat)) ∧
  ComputesImm .srli (fun a shamt => BitVec.ofNat 64 (a.toNat / 2 ^ shamt.toNat)) ∧
  ComputesImm .srai (fun a shamt => BitVec.ofInt 64 (a.toInt / 2 ^ shamt.toNat))

/-- 47_op.md R186 to R190: ADD, SUB, XOR, OR, AND. -/
def Obligations.RegisterRegisterOperations : Prop :=
  ComputesReg .add (fun a b => BitVec.ofNat 64 (a.toNat + b.toNat)) ∧
  ComputesReg .sub (fun a b => BitVec.ofInt 64 (a.toInt - b.toInt)) ∧
  ComputesReg .xor (fun a b => a ^^^ b) ∧
  ComputesReg .or (fun a b => a ||| b) ∧
  ComputesReg .and (fun a b => a &&& b) ∧
  (∀ (rd rs1 rs2 : Reg),
    fieldOpcode (encode (.sub rd rs1 rs2)) = fieldOpcode (encode (.add rd rs1 rs2)) ∧
    fieldFunct3 (encode (.sub rd rs1 rs2)) = fieldFunct3 (encode (.add rd rs1 rs2)) ∧
    fieldFunct7 (encode (.sub rd rs1 rs2)) ≠ fieldFunct7 (encode (.add rd rs1 rs2)))

/-- 48_system_illegal_halt.md R195: the zero word, and only it, ends the run cleanly, with nothing changed
but the status. -/
def Obligations.ZeroWordHaltsCleanly : Prop :=
  (∀ s : State, ReadyToFetch s → s.pc.toNat % 4 = 0 → InWindow s s.pc 4 →
    (∀ k, k < 4 → s.mem.read (s.pc.toNat + k) = 0#8) → EndsRun (step s) s .haltZero) ∧
  (∀ s : State, EndsRun (exec .halt s) s .haltZero) ∧
  (∀ (extra : Bool) (w : InstrWord), decode extra w = .instr .halt ↔ w = 0#32)

/-- 48_system_illegal_halt.md R196: every word with opcode 0x73 ends the run with Unsupported, recording
the pc and the word, nothing else changed. That the opcode alone selects the class is the spec's decision
D15 (log 15). -/
def Obligations.SystemWordsAreUnsupported : Prop :=
  (∀ (rest : BitVec 25) (s : State),
    EndsRun (exec (.system rest) s) s (.fault (.unsupported s.pc (rest ++ 0x73#7)))) ∧
  (∀ (s : State) (w : InstrWord), ReadyToFetch s → fetch32 s s.pc = .ok w → bitsOf w 6 0 = 0x73 →
    EndsRun (step s) s (.fault (.unsupported s.pc w)))

/-- 48_system_illegal_halt.md R197: the words without an instruction are exactly the sets (a) to (g), and
fetching one ends the run with IllegalInstruction, recording the pc and the word. The sets hold the spec's
decisions D1 to D4, and leave out every word with opcode 0x73 by its decision D15 (log 7, log 15). -/
def Obligations.IllegalWordsAreExactlyListed : Prop :=
  (∀ (extra : Bool) (w : InstrWord), (∃ why, decode extra w = .illegal why) ↔ IllegalWord extra w) ∧
  (∀ (s : State) (w : InstrWord), ReadyToFetch s → fetch32 s s.pc = .ok w →
    IllegalWord s.cfg.opimmExtra w → EndsRun (step s) s (.fault (.illegalInstruction s.pc w)))

/-! ## The step -/

/-- 40_sequencer.md R112 step 2 and R115: the fetch faults, and the word it otherwise returns. That Misaligned
comes before OutOfRange, also for a pc that is both, is the spec's decision D6 (20_memory.md R55,
60_exceptions.md R210; log 11). -/
def Obligations.FetchChecksPc : Prop :=
  ∀ s : State, ReadyToFetch s →
    (s.pc.toNat % 4 ≠ 0 → EndsRun (step s) s (.fault (.fetchMisaligned s.pc))) ∧
    (s.pc.toNat % 4 = 0 → ¬ InWindow s s.pc 4 → EndsRun (step s) s (.fault (.fetchOutOfRange s.pc))) ∧
    (s.pc.toNat % 4 = 0 → InWindow s s.pc 4 →
      fetch32 s s.pc = .ok (BitVec.ofNat 32 (leValue s.mem s.pc.toNat 4)))

/-- 60_exceptions.md R210, 48_system_illegal_halt.md R197: the order of the tests of one step, each with what
it ends the run with. The clauses rest on decisions of the spec: the place of the budget on D7 (log 12), the
comparison with HALT_ADDR on D16 (log 23), Misaligned before OutOfRange on D6 (log 11), which words are illegal
on D1 to D4 and D15 (log 7, log 15), and that an ending changes nothing but the status on D8 (log 13). -/
def Obligations.StepTestsInOrder : Prop :=
  ∀ s : State, s.status = .running →
    (s.cfg.maxSteps ≤ s.steps → EndsRun (step s) s (.fault .stepBudgetExhausted)) ∧
    (s.steps < s.cfg.maxSteps → s.cfg.haltAddr = some s.pc → EndsRun (step s) s .haltAddr) ∧
    (s.steps < s.cfg.maxSteps → s.cfg.haltAddr ≠ some s.pc →
      (s.pc.toNat % 4 ≠ 0 → EndsRun (step s) s (.fault (.fetchMisaligned s.pc))) ∧
      (s.pc.toNat % 4 = 0 → ¬ InWindow s s.pc 4 → EndsRun (step s) s (.fault (.fetchOutOfRange s.pc))) ∧
      (∀ w : InstrWord, fetch32 s s.pc = .ok w →
        (w = 0#32 → EndsRun (step s) s .haltZero) ∧
        (w ≠ 0#32 → IllegalWord s.cfg.opimmExtra w →
          EndsRun (step s) s (.fault (.illegalInstruction s.pc w))) ∧
        (w ≠ 0#32 → ¬ IllegalWord s.cfg.opimmExtra w →
          ∃ i, decode s.cfg.opimmExtra w = .instr i ∧ step s = exec i s)))

/-- 40_sequencer.md R112, R119: when the four bytes at the pc decode to an instruction, the step is that
instruction's meaning; the model's `exec` makes steps 5 to 8 itself, so nothing is added around it
(log 9). -/
def Obligations.StepRunsDecodedInstruction : Prop :=
  ∀ (s : State) (i : Instr), ReadyToFetch s → s.pc.toNat % 4 = 0 → InWindow s s.pc 4 →
    decodeBytes s.cfg.opimmExtra
      [s.mem.read s.pc.toNat, s.mem.read (s.pc.toNat + 1), s.mem.read (s.pc.toNat + 2),
        s.mem.read (s.pc.toNat + 3)] = (.instr i, []) →
    step s = exec i s

/-- 40_sequencer.md R125, 70_reset_and_hazards.md R244: the step is a total function of the state; in this
model it always answers a next state, because every fault of the hardware is one (log 2). -/
def Obligations.EveryStepAnswersNext : Prop :=
  ∀ s : State, ∃ t, step s = .next t

/-- 40_sequencer.md R122: terminal states absorb, for one step and for any number. That the model's
step is defined there at all, and answers the state itself, is log 3. -/
def Obligations.TerminalStatesAbsorb : Prop :=
  ∀ s : State, s.status ≠ .running →
    step s = .next s ∧ ∀ n : Nat, Sys2Proof.core.run n s = .next s

/-- 40_sequencer.md R121, R123, 60_exceptions.md R211: a step either completes, and then it is counted and
the run goes on under the same configuration, or it ends the run, and then nothing changed but the status
(the spec's decision D8, log 13). -/
def Obligations.StepCompletesOrOnlyEnds : Prop :=
  ∀ s t : State, s.status = .running → step s = .next t →
    (t.status = .running ∧ t.steps = s.steps + 1 ∧ t.cfg = s.cfg) ∨
    (t.status ≠ .running ∧ t = { s with status := t.status })

/-- 40_sequencer.md R126: every run ends after at most the steps the budget leaves, and one more; and it
has completed no more steps than the budget. That the budget is tested at the start of every step, before the
halt address, is the spec's decision D7 (R113; log 12). -/
def Obligations.EveryRunEndsWithinBudget : Prop :=
  ∀ s : State, ∃ t : State, Sys2Proof.core.run (s.cfg.maxSteps - s.steps + 1) s = .next t ∧
    t.status ≠ .running ∧ t.steps ≤ max s.steps s.cfg.maxSteps

/-! ## Registers, the pc and memory -/

/-- 10_state.md R22, 40_sequencer.md R120: after every instruction that commits, register 0 is zero; one that
names register 0 as its destination is still executed, and changes no other register. -/
def Obligations.ZeroRegisterForced : Prop :=
  ∀ (i : Instr) (s t : State), exec i s = .next t → t.steps = s.steps + 1 →
    t.regs[(0 : Reg)] = 0#64 ∧
    (i.dest = some 0 → ∀ r : Reg, r ≠ 0 → t.regs[r] = s.regs[r])

/-- 10_state.md R26: an instruction writes no register but the one its `rd` names (and register 0, which is
forced), and what it does depends on no register but the ones it names as sources; an illegal word (the sets
of `Obligations.IllegalWordsAreExactlyListed`, decisions D1 to D4 and D15; log 7, log 15) reads and writes none. -/
def Obligations.OnlyNamedRegistersMatter : Prop :=
  (∀ (i : Instr) (s t : State), exec i s = .next t →
    ∀ r : Reg, r ≠ 0 → i.dest ≠ some r → t.regs[r] = s.regs[r]) ∧
  (∀ (i : Instr) (s t t' : State) (regs' : Vector Word 32),
    (∀ r ∈ i.sources, regs'[r] = s.regs[r]) →
    exec i s = .next t → exec i { s with regs := regs' } = .next t' →
    t' = { t with regs := t'.regs } ∧
    (t.steps = s.steps + 1 → ∀ rd, i.dest = some rd → t'.regs[rd] = t.regs[rd])) ∧
  (∀ (s : State) (w : InstrWord) (regs' : Vector Word 32), ReadyToFetch s → fetch32 s s.pc = .ok w →
    IllegalWord s.cfg.opimmExtra w →
    step { s with regs := regs' }
      = .next { s with regs := regs', status := .fault (.illegalInstruction s.pc w) })

/-- 10_state.md R29: a pc written by an instruction is even. -/
def Obligations.WrittenPcIsEven : Prop :=
  ∀ s t : State, s.status = .running → step s = .next t → t.status = .running → t.pc.toNat % 2 = 0

/-- 42_jumps.md R137: a jump or branch completes whatever its target, its link register written and the step
counted; the next step's fetch is what checks the target. That a target which is both misaligned and out of
range reports FetchMisaligned is the spec's decision D6 (log 11). -/
def Obligations.TargetCheckedAtNextFetch : Prop :=
  ∀ (i : Instr) (s : State), i.isControl = true →
    ∃ t, exec i s = .next t ∧ t.steps = s.steps + 1 ∧ t.status = s.status ∧
      (∀ rd, i.dest = some rd → rd ≠ 0 → t.regs[rd] = s.pc + 4#64) ∧
      (ReadyToFetch t → t.pc.toNat % 4 ≠ 0 → EndsRun (step t) t (.fault (.fetchMisaligned t.pc))) ∧
      (ReadyToFetch t → t.pc.toNat % 4 = 0 → ¬ InWindow t t.pc 4 →
        EndsRun (step t) t (.fault (.fetchOutOfRange t.pc)))

/-- 20_memory.md R62, 10_state.md R37: a step that changes memory is a store's. -/
def Obligations.OnlyStoresChangeMemory : Prop :=
  ∀ s t : State, step s = .next t → t.mem ≠ s.mem →
    ∃ w i, fetch32 s s.pc = .ok w ∧ decode s.cfg.opimmExtra w = .instr i ∧ i.isStore = true

/-- 20_memory.md R59: a load right after a store to the same address gives back the stored value, for every
width and both extensions. Stated of states with a canonical memory and register 0 zero, as every step
leaves them (`Obligations.StepKeepsInvariant`). -/
def Obligations.StoreThenLoadRoundTrip : Prop :=
  RoundTrips .sb .lb 1 (signedOf 8) ∧ RoundTrips .sb .lbu 1 unsignedOf ∧
  RoundTrips .sh .lh 2 (signedOf 16) ∧ RoundTrips .sh .lhu 2 unsignedOf ∧
  RoundTrips .sw .lw 4 (signedOf 32) ∧ RoundTrips .sw .lwu 4 unsignedOf ∧
  RoundTrips .sd .ld 8 unsignedOf

/-- 20_memory.md R56: after a doubleword is written, narrower reads inside it see its bytes in
little-endian order. -/
def Obligations.WidthsSeeTheSameBytes : Prop :=
  ∀ (s t : State) (a v : Word), s.mem.wf → memWrite s a .double v = .ok t →
    (∀ k, k < 8 → memRead t (a + BitVec.ofNat 64 k) .byte = .ok ((v.extractLsb' (8 * k) 8).setWidth 64)) ∧
    (∀ k, k < 4 →
      memRead t (a + BitVec.ofNat 64 (2 * k)) .half = .ok ((v.extractLsb' (16 * k) 16).setWidth 64)) ∧
    (∀ k, k < 2 →
      memRead t (a + BitVec.ofNat 64 (4 * k)) .word = .ok ((v.extractLsb' (32 * k) 32).setWidth 64))

/-- 20_memory.md R68: a word stored with SW is what the next fetch from its address reads, and the step
that fetches it runs it. -/
def Obligations.StoredWordIsFetched : Prop :=
  ∀ (rs1 rs2 : Reg) (imm : BitVec 12) (s t : State),
    s.mem.wf → exec (.sw rs1 rs2 imm) s = .next t → t.steps = s.steps + 1 →
    fetch32 t (s.regs[rs1] + imm.signExtend 64) = .ok (s.regs[rs2].setWidth 32) ∧
    (∀ i, ReadyToFetch t → t.pc = s.regs[rs1] + imm.signExtend 64 →
      decode t.cfg.opimmExtra (s.regs[rs2].setWidth 32) = .instr i → step t = exec i t)

/-! ## Reset and the invariant -/

/-- 70_reset_and_hazards.md R235: the state after reset, for every value of the parameters. That register 2 and
the memory come from parameters SP_INIT and MEM_INIT are the spec's decisions D9 and D13 (log 4). -/
def Obligations.ResetStateForAnyParameters : Prop :=
  ∀ (c : Config) (b : Boot),
    (∀ r : Reg, (State.boot c b).regs[r] = if r = 2 then b.spInit else 0#64) ∧
    (State.boot c b).pc = b.entry ∧
    (∀ a : Nat, (State.boot c b).mem.read a = Memory.read b.memInit a) ∧
    (State.boot c b).status = .running ∧ (State.boot c b).steps = 0 ∧ (State.boot c b).cfg = c

/-- 00_scope.md R6: `State.reset` has the default parameters. That its ENTRY is the default MEM_BASE is the
model's choice (log 4), since R6 gives ENTRY no default; that nothing is loaded is log 5. The
defaults of SP_INIT and OPIMM_EXTRA are the spec's decisions D9 and D1 (log 4, log 7). -/
def Obligations.ResetHasDefaultParameters : Prop :=
  State.reset.cfg.memBase = 0x80000000#64 ∧ State.reset.cfg.memSize = 65536 ∧
  State.reset.cfg.maxSteps = 5000000 ∧ State.reset.cfg.haltAddr = none ∧
  State.reset.cfg.opimmExtra = false ∧ State.reset.pc = 0x80000000#64 ∧
  (∀ r : Reg, State.reset.regs[r] = 0#64) ∧ (∀ a : Nat, State.reset.mem.read a = 0#8) ∧
  State.reset.status = .running ∧ State.reset.steps = 0

/-- 70_reset_and_hazards.md R236, R237: the state after a program is loaded. A later segment's bytes, zero
fill included, win over an earlier one's, every other byte is zero, the pc is the entry, which is in the
window, and the loaded memory meets what the invariant asks; a segment that does not fit, or an entry
outside the window, gives no state at all. That the image is a parameter is decision D13; what of the loader
is modelled is log 19. -/
def Obligations.LoadedImageIsPlaced : Prop :=
  (∀ (c : Config) (sp : Word) (segs : List Segment) (entry : Word) (s : State),
    loadImage c sp segs entry = some s →
    entryInWindow c entry ∧ s.pc = entry ∧ s.regs[(2 : Reg)] = sp ∧ s.Inv ∧
    (∀ (before after : List Segment) (g : Segment) (a : Nat), segs = before ++ g :: after →
      g.Covers a → (∀ h ∈ after, ¬ h.Covers a) → s.mem.read a = g.byteAt a) ∧
    (∀ a : Nat, (∀ g ∈ segs, ¬ g.Covers a) → s.mem.read a = 0#8)) ∧
  (∀ (c : Config) (sp : Word) (segs : List Segment) (entry : Word),
    (¬ entryInWindow c entry ∨ ∃ g ∈ segs, g.memSize ≠ 0 ∧ ¬ g.Fits c) → loadImage c sp segs entry = none)

/-- The invariant of Safety.lean (10_state.md R23, 20_memory.md R50, 40_sequencer.md R113, 60_exceptions.md
R207) is kept by every step, from every state that has it. What it says of the count and of the statuses rests
on the spec's decisions D1 to D4 and D15 (which words are illegal or SYSTEM; log 7, log 15), D6 (a recorded
out-of-range address is aligned; log 11), D7 (the budget test; log 12) and D8 (a step that ends the run leaves
the rest; log 13). -/
def Obligations.StepKeepsInvariant : Prop :=
  ∀ s t : State, s.Inv → step s = .next t → t.Inv

/-- The invariant holds after reset, for every boot image a loader can produce. What `BootValid` asks
of the image is R236's shape (decision D13); `State.boot` itself refuses nothing (log 20). -/
def Obligations.ResetHasInvariant : Prop :=
  (∀ (c : Config) (b : Boot), BootValid c b → (State.boot c b).Inv) ∧ State.reset.Inv

/-! ## Encoding -/

/-- 30_encoding.md R83, R84, R85, R87: the I-, S-, B- and J-immediates of a word, as numbers, with their
ranges; the B- and J-immediates are even. -/
def Obligations.ImmediatesOfWords : Prop :=
  ∀ w : InstrWord,
    IsSignedField 12 (bitsOf w 31 20) (immI (fieldImmI w)) ∧
    IsSignedField 12 (bitsOf w 31 25 * 2 ^ 5 + bitsOf w 11 7) (immS (fieldImmS w)) ∧
    (IsSignedField 13
        (bitsOf w 31 31 * 2 ^ 12 + bitsOf w 7 7 * 2 ^ 11 + bitsOf w 30 25 * 2 ^ 5 + bitsOf w 11 8 * 2)
        (immB (fieldImmB w)) ∧
      (immB (fieldImmB w)).toInt % 2 = 0 ∧ (immB (fieldImmB w)).toInt ≤ 4094) ∧
    (IsSignedField 21
        (bitsOf w 31 31 * 2 ^ 20 + bitsOf w 19 12 * 2 ^ 12 + bitsOf w 20 20 * 2 ^ 11 + bitsOf w 30 21 * 2)
        (immJ (fieldImmJ w)) ∧
      (immJ (fieldImmJ w)).toInt % 2 = 0 ∧ (immJ (fieldImmJ w)).toInt ≤ 2 ^ 20 - 2)

/-- 30_encoding.md R86: the U-immediate of a word, as a number: a multiple of 4096; that it is sign-extended
from bit 31 is the spec's resolution of conflict C1. -/
def Obligations.UpperImmediateOfWords : Prop :=
  ∀ w : InstrWord,
    IsSignedField 32 (bitsOf w 31 12 * 4096) (immU (fieldImmU w)) ∧
    (immU (fieldImmU w)).toInt % 4096 = 0

/-- 30_encoding.md R82 to R95, 46_op_imm.md R176 to R180: every word with a row's bits under the row's mask is
that row's instruction, with every operand read from its place in the word, the fields given as numbers. The
zero word is `Obligations.ZeroWordHaltsCleanly`. The numbers are the spec's decision D20 (log 14), that OP, JALR
and SYSTEM words are selected by just these bits its decisions D2, D3, D15 (log 15), that the last five rows
exist its decision D1 (log 7), that the shifts ask for `inst[31:26]` its decision D18 (log 17). -/
def Obligations.WordsHaveTheirFields : Prop :=
  WordsAre 0x00000037#32 0x0000007F#32 (fun w => .lui (regAt w 7) (immUBits w)) ∧
  WordsAre 0x00000017#32 0x0000007F#32 (fun w => .auipc (regAt w 7) (immUBits w)) ∧
  WordsAre 0x0000006F#32 0x0000007F#32 (fun w => .jal (regAt w 7) (immJBits w)) ∧
  WordsAre 0x00000067#32 0x0000707F#32 (fun w => .jalr (regAt w 7) (regAt w 15) (immIBits w)) ∧
  WordsAre 0x00000063#32 0x0000707F#32 (fun w => .beq (regAt w 15) (regAt w 20) (immBBits w)) ∧
  WordsAre 0x00001063#32 0x0000707F#32 (fun w => .bne (regAt w 15) (regAt w 20) (immBBits w)) ∧
  WordsAre 0x00004063#32 0x0000707F#32 (fun w => .blt (regAt w 15) (regAt w 20) (immBBits w)) ∧
  WordsAre 0x00005063#32 0x0000707F#32 (fun w => .bge (regAt w 15) (regAt w 20) (immBBits w)) ∧
  WordsAre 0x00006063#32 0x0000707F#32 (fun w => .bltu (regAt w 15) (regAt w 20) (immBBits w)) ∧
  WordsAre 0x00007063#32 0x0000707F#32 (fun w => .bgeu (regAt w 15) (regAt w 20) (immBBits w)) ∧
  WordsAre 0x00000003#32 0x0000707F#32 (fun w => .lb (regAt w 7) (regAt w 15) (immIBits w)) ∧
  WordsAre 0x00001003#32 0x0000707F#32 (fun w => .lh (regAt w 7) (regAt w 15) (immIBits w)) ∧
  WordsAre 0x00002003#32 0x0000707F#32 (fun w => .lw (regAt w 7) (regAt w 15) (immIBits w)) ∧
  WordsAre 0x00003003#32 0x0000707F#32 (fun w => .ld (regAt w 7) (regAt w 15) (immIBits w)) ∧
  WordsAre 0x00004003#32 0x0000707F#32 (fun w => .lbu (regAt w 7) (regAt w 15) (immIBits w)) ∧
  WordsAre 0x00005003#32 0x0000707F#32 (fun w => .lhu (regAt w 7) (regAt w 15) (immIBits w)) ∧
  WordsAre 0x00006003#32 0x0000707F#32 (fun w => .lwu (regAt w 7) (regAt w 15) (immIBits w)) ∧
  WordsAre 0x00000023#32 0x0000707F#32 (fun w => .sb (regAt w 15) (regAt w 20) (immSBits w)) ∧
  WordsAre 0x00001023#32 0x0000707F#32 (fun w => .sh (regAt w 15) (regAt w 20) (immSBits w)) ∧
  WordsAre 0x00002023#32 0x0000707F#32 (fun w => .sw (regAt w 15) (regAt w 20) (immSBits w)) ∧
  WordsAre 0x00003023#32 0x0000707F#32 (fun w => .sd (regAt w 15) (regAt w 20) (immSBits w)) ∧
  WordsAre 0x00000013#32 0x0000707F#32 (fun w => .addi (regAt w 7) (regAt w 15) (immIBits w)) ∧
  WordsAre 0x00004013#32 0x0000707F#32 (fun w => .xori (regAt w 7) (regAt w 15) (immIBits w)) ∧
  WordsAre 0x00006013#32 0x0000707F#32 (fun w => .ori (regAt w 7) (regAt w 15) (immIBits w)) ∧
  WordsAre 0x00007013#32 0x0000707F#32 (fun w => .andi (regAt w 7) (regAt w 15) (immIBits w)) ∧
  WordsAre 0x00000033#32 0xFE00707F#32 (fun w => .add (regAt w 7) (regAt w 15) (regAt w 20)) ∧
  WordsAre 0x40000033#32 0xFE00707F#32 (fun w => .sub (regAt w 7) (regAt w 15) (regAt w 20)) ∧
  WordsAre 0x00004033#32 0xFE00707F#32 (fun w => .xor (regAt w 7) (regAt w 15) (regAt w 20)) ∧
  WordsAre 0x00006033#32 0xFE00707F#32 (fun w => .or (regAt w 7) (regAt w 15) (regAt w 20)) ∧
  WordsAre 0x00007033#32 0xFE00707F#32 (fun w => .and (regAt w 7) (regAt w 15) (regAt w 20)) ∧
  WordsAre 0x00000073#32 0x0000007F#32 (fun w => .system (BitVec.ofNat 25 (bitsOf w 31 7))) ∧
  WordsAreWithExtra 0x00002013#32 0x0000707F#32 (fun w => .slti (regAt w 7) (regAt w 15) (immIBits w)) ∧
  WordsAreWithExtra 0x00003013#32 0x0000707F#32 (fun w => .sltiu (regAt w 7) (regAt w 15) (immIBits w)) ∧
  WordsAreWithExtra 0x00001013#32 0xFC00707F#32 (fun w => .slli (regAt w 7) (regAt w 15) (shamtBits w)) ∧
  WordsAreWithExtra 0x00005013#32 0xFC00707F#32 (fun w => .srli (regAt w 7) (regAt w 15) (shamtBits w)) ∧
  WordsAreWithExtra 0x40005013#32 0xFC00707F#32 (fun w => .srai (regAt w 7) (regAt w 15) (shamtBits w))

/-- 30_encoding.md R80 to R95: decoding the encoding of a well-formed instruction gives it back, from the
word and from its bytes in memory order with anything after them. Which rows exist is the spec's decision D1
(log 7), their numbers its decision D20 (log 14), the shift amount of six bits its decision D18 (log 17). -/
def Obligations.DecodeInvertsEncode : Prop :=
  ∀ (extra : Bool) (i : Instr) (rest : List Byte),
    i.wellFormed = true → (i.row.extraOnly = true → extra = true) →
    decode extra (encode i) = .instr i ∧
    decodeBytes extra (wordBytes (encode i) ++ rest) = (.instr i, rest)

/-- 30_encoding.md R101: no bit of a decoded word is dropped: encoding what was decoded gives the word
back, and what was decoded is well formed. That every bit of funct7 of OP and of funct3 of JALR is compared is
the spec's decisions D2 and D3 (log 15), `inst[31:26]` of the shifts its decision D18 (log 17). -/
def Obligations.EncodeInvertsDecode : Prop :=
  ∀ (extra : Bool) (w : InstrWord) (i : Instr), decode extra w = .instr i →
    encode i = w ∧ i.wellFormed = true

/-- 30_encoding.md R97, R101: the decoder and the opcode table agree. A decoded word has the bits of its
instruction's row, and a word that has the bits of a row that exists is an instruction of that row; so no
word matches two rows. The table holds the spec's decisions D1 to D4, D15, D18 and D20 (log 7, log 14, log 15,
log 17). -/
def Obligations.DecoderAgreesWithTable : Prop :=
  (∀ (extra : Bool) (w : InstrWord) (i : Instr), decode extra w = .instr i →
    i.row ∈ opcodeTable ∧ i.row.Matches w ∧ (i.row.extraOnly = true → extra = true)) ∧
  (∀ (extra : Bool) (w : InstrWord) (r : TableRow), r ∈ opcodeTable → r.Matches w →
    (r.extraOnly = true → extra = true) → ∃ i, decode extra w = .instr i ∧ i.row = r)

/-- Eleven words printed in the spec's test vectors decode to the instructions they stand for, one at least of
each family; the SRAI word does so with OPIMM_EXTRA true and is illegal with it false, which is the spec's
decision D1 (log 7). The numbers are its decision D20 (log 14). -/
def Obligations.SampleWordsDecode : Prop :=
  decode false 0x123452B7#32 = .instr (.lui 5 0x12345#20) ∧
  decode false 0xFFDFF0EF#32 = .instr (.jal 1 (BitVec.ofInt 21 (-4))) ∧
  decode false 0x004282E7#32 = .instr (.jalr 5 5 4#12) ∧
  decode false 0xFE0000E3#32 = .instr (.beq 0 0 (BitVec.ofInt 13 (-32))) ∧
  decode false 0x00436283#32 = .instr (.lwu 5 6 4#12) ∧
  decode false 0xFE730FA3#32 = .instr (.sb 6 7 (BitVec.ofInt 12 (-1))) ∧
  decode false 0xFFF34293#32 = .instr (.xori 5 6 (BitVec.ofInt 12 (-1))) ∧
  decode false 0x407302B3#32 = .instr (.sub 5 6 7) ∧
  decode false 0x00000000#32 = .instr .halt ∧
  decode false 0x30200073#32 = .instr (.system 0x604000#25) ∧
  decode true 0x40435293#32 = .instr (.srai 5 6 4#6) ∧
  decode false 0x40435293#32 = .illegal .opImmBaseline

/-! ## What the host sees -/

/-- 60_exceptions.md R206, R220, R221: the numeric codes, by which the kinds are told apart, and the exit
status of each terminal status. The codes are the spec's decision D10, the fault kinds of loads and stores its
decision D14 (log 24), the exit statuses of the kinds the
source does not list are derived by the spec (log 22). -/
def Obligations.StatusCodesAndExit : Prop :=
  (∀ st : Status, st.exitStatus = some 0 ↔ (st = .haltAddr ∨ st = .haltZero)) ∧
  (∀ st : Status, st.exitStatus = some 1 ↔ ∃ k, st = .fault k) ∧
  (∀ st : Status, st.exitStatus = none ↔ st = .running) ∧
  Status.running.code = 0 ∧ Status.haltAddr.code = 1 ∧ Status.haltZero.code = 2 ∧
  (Status.fault .stepBudgetExhausted).code = 16 ∧
  (∀ a, (Status.fault (.fetchMisaligned a)).code = 17) ∧
  (∀ a, (Status.fault (.fetchOutOfRange a)).code = 18) ∧
  (∀ p w, (Status.fault (.illegalInstruction p w)).code = 19) ∧
  (∀ p w, (Status.fault (.unsupported p w)).code = 20) ∧
  (∀ a n, (Status.fault (.loadMisaligned a n)).code = 21) ∧
  (∀ a n, (Status.fault (.loadOutOfRange a n)).code = 22) ∧
  (∀ a n, (Status.fault (.storeMisaligned a n)).code = 23) ∧
  (∀ a n, (Status.fault (.storeOutOfRange a n)).code = 24)
end

