-- ==== Sys2Proof/Laws/Memory.lean ====
section
/-! SUPPORT. The memory image: read after write, the canonical form kept by every memory operation, and
the little-endian reads and writes of several bytes. -/

namespace Sys2Proof.Machine

namespace Memory

/-! ## One byte -/

@[simp] theorem read_nil (a : Nat) : read [] a = unlisted := rfl

theorem read_cons (k : Nat) (b : Byte) (m : Memory) (a : Nat) :
    read ((k, b) :: m) a = if k = a then b else read m a := rfl

/-- An address below every listed one reads as an unlisted address. -/
theorem read_eq_unlisted {m : Memory} {a : Nat} (h : ∀ c ∈ m, a ≠ c.1) : read m a = unlisted := by
  induction m with
  | nil => rfl
  | cons c m ih =>
    obtain ⟨k, b⟩ := c
    have hk : k ≠ a := fun e => h (k, b) (by simp) e.symm
    rw [read_cons, if_neg hk]
    exact ih fun c hc => h c (by simp [hc])

theorem wf_tail {c : Host.Cell} {m : Memory} (h : wf (c :: m)) : wf m :=
  ⟨(List.pairwise_cons.1 h.1).2, fun d hd => h.2 d (by simp [hd])⟩

theorem head_lt {c : Host.Cell} {m : Memory} (h : wf (c :: m)) : ∀ d ∈ m, c.1 < d.1 :=
  (List.pairwise_cons.1 h.1).1

theorem wf_nil : wf [] := ⟨List.Pairwise.nil, by simp⟩

theorem wf_entry {a : Nat} {b : Byte} {m : Memory} (h : wf m) (ha : ∀ d ∈ m, a < d.1) :
    wf (entry a b m) := by
  unfold entry
  split
  · exact h
  · rename_i hb
    exact ⟨List.pairwise_cons.2 ⟨ha, h.1⟩, by simpa [hb] using h.2⟩

theorem read_entry {a : Nat} {b : Byte} {m : Memory} (ha : ∀ d ∈ m, a < d.1) (x : Nat) :
    read (entry a b m) x = if a = x then b else read m x := by
  unfold entry
  split
  · rename_i hb
    split
    · rename_i hax
      subst hax
      rw [read_eq_unlisted fun c hc => Nat.ne_of_lt (ha c hc), hb]
    · rfl
  · exact read_cons a b m x

theorem mem_entry {a : Nat} {b : Byte} {m : Memory} {c : Host.Cell} (h : c ∈ entry a b m) :
    c = (a, b) ∨ c ∈ m := by
  unfold entry at h
  split at h
  · exact .inr h
  · simpa using h

/-- Every cell of a written memory is the written one or an old one. -/
theorem mem_write {m : Memory} {a : Nat} {b : Byte} {c : Host.Cell} (h : c ∈ write m a b) :
    c = (a, b) ∨ c ∈ m := by
  induction m with
  | nil => exact mem_entry h
  | cons d m ih =>
    obtain ⟨k, e⟩ := d
    unfold write at h
    split at h
    · exact mem_entry h
    · split at h
      · exact (mem_entry h).imp_right fun h => by simp [h]
      · rcases List.mem_cons.1 h with h | h
        · simp [h]
        · exact (ih h).imp_right fun h => by simp [h]

/-- A write of one byte keeps the canonical form. -/
theorem write_wf {m : Memory} (h : wf m) (a : Nat) (b : Byte) : wf (write m a b) := by
  induction m with
  | nil => exact wf_entry h (by simp)
  | cons d m ih =>
    obtain ⟨k, e⟩ := d
    have hlt := head_lt h
    unfold write
    split
    · rename_i hak
      refine wf_entry h fun d hd => ?_
      rcases List.mem_cons.1 hd with rfl | hd
      · exact hak
      · exact Nat.lt_trans hak (hlt d hd)
    · split
      · rename_i hak
        subst hak
        exact wf_entry (wf_tail h) hlt
      · rename_i h1 h2
        refine ⟨List.pairwise_cons.2 ⟨fun d hd => ?_, (ih (wf_tail h)).1⟩, fun d hd => ?_⟩
        · rcases mem_write hd with rfl | hd
          · simp only at *
            omega
          · exact hlt d hd
        · rcases List.mem_cons.1 hd with rfl | hd
          · exact h.2 _ (by simp)
          · exact (ih (wf_tail h)).2 d hd

/-- Reading after a write of one byte, in a canonical memory. -/
theorem read_write {m : Memory} (h : wf m) (a : Nat) (b : Byte) (x : Nat) :
    read (write m a b) x = if a = x then b else read m x := by
  induction m with
  | nil => exact read_entry (by simp) x
  | cons d m ih =>
    obtain ⟨k, e⟩ := d
    have hlt := head_lt h
    unfold write
    split
    · rename_i hak
      refine read_entry (fun d hd => ?_) x
      rcases List.mem_cons.1 hd with rfl | hd
      · exact hak
      · exact Nat.lt_trans hak (hlt d hd)
    · split
      · rename_i hak
        subst hak
        rw [read_entry hlt, read_cons]
        split <;> simp_all
      · rename_i h1 h2
        rw [read_cons, read_cons, ih (wf_tail h)]
        split <;> split <;> first | rfl | omega

/-! ## Several bytes, little-endian -/

/-- A write of several bytes keeps the canonical form. -/
theorem writeLE_wf {m : Memory} (h : wf m) (a n : Nat) (v : Word) : wf (writeLE m a n v) := by
  induction n generalizing m a v with
  | zero => exact h
  | succ n ih => exact ih (write_wf h a _) (a + 1) (v >>> 8)

/-- Every cell of the written memory is one of the written bytes or an old one. -/
theorem mem_writeLE {m : Memory} {a n : Nat} {v : Word} {c : Host.Cell} (h : c ∈ writeLE m a n v) :
    (a ≤ c.1 ∧ c.1 < a + n) ∨ c ∈ m := by
  induction n generalizing m a v with
  | zero => exact .inr h
  | succ n ih =>
    rcases ih h with h | h
    · left; omega
    · rcases mem_write h with rfl | h
      · left; simp only; omega
      · exact .inr h

/-- Reading one byte after a write of several, in a canonical memory. -/
theorem read_writeLE {m : Memory} (h : wf m) (a n : Nat) (v : Word) (x : Nat) :
    read (writeLE m a n v) x
      = if a ≤ x ∧ x < a + n then v.extractLsb' (8 * (x - a)) 8 else read m x := by
  induction n generalizing m a v with
  | zero =>
    rw [if_neg (by omega)]
    rfl
  | succ n ih =>
    rw [writeLE, ih (write_wf h a _), read_write h]
    by_cases hx : a = x
    · subst hx
      rw [if_neg (by omega), if_pos rfl, if_pos (by omega), Nat.sub_self]
      exact BitVec.eq_of_getLsbD_eq fun i hi => by simp [hi]
    · rw [if_neg hx]
      by_cases hin : a + 1 ≤ x ∧ x < a + 1 + n
      · rw [if_pos hin, if_pos (by omega)]
        refine BitVec.eq_of_getLsbD_eq fun i hi => ?_
        simp only [BitVec.getLsbD_extractLsb', hi, decide_true, Bool.true_and,
          BitVec.getLsbD_ushiftRight]
        congr 1
        omega
      · rw [if_neg hin, if_neg (by omega)]

/-- The value of several bytes depends on those bytes alone. -/
theorem readLE_congr {m m' : Memory} {a n : Nat} (h : ∀ k, k < n → read m (a + k) = read m' (a + k)) :
    readLE m a n = readLE m' a n := by
  induction n generalizing a with
  | zero => rfl
  | succ n ih =>
    have h0 := h 0 (by omega)
    have ih := ih (a := a + 1) fun k hk => by
      have := h (k + 1) (by omega)
      rwa [show a + (k + 1) = a + 1 + k by omega] at this
    simp only [Nat.add_zero] at h0
    rw [readLE, readLE, h0, ih]

/-- The value of `n` bytes is below `2 ^ (8 * n)`. -/
theorem readLE_lt (m : Memory) (a n : Nat) : readLE m a n < 2 ^ (8 * n) := by
  induction n generalizing a with
  | zero => exact Nat.one_pos
  | succ n ih =>
    have h1 := ih (a + 1)
    have h2 : (read m a).toNat < 256 := (read m a).isLt
    rw [readLE, show 8 * (n + 1) = 8 * n + 8 by omega, Nat.pow_add]
    omega

/-- The model's sum, from the lowest byte up, is the sum of R53. -/
theorem readLE_eq_leValue (m : Memory) (a n : Nat) : readLE m a n = leValue m a n := by
  induction n generalizing a with
  | zero => rfl
  | succ n ih =>
    rw [readLE, ih (a + 1), leValue]
    clear ih
    induction n with
    | zero => simp [leValue]
    | succ n ih =>
      rw [leValue, leValue, Nat.mul_add, ← Nat.add_assoc, ih,
        show a + 1 + n = a + (n + 1) by omega, show 8 * (n + 1) = 8 * n + 8 by omega, Nat.pow_add,
        ← Nat.mul_assoc, Nat.mul_comm 256]

/-- Reading back a write of several bytes gives the value's low bytes (R59). -/
theorem readLE_writeLE {m : Memory} (h : wf m) (a n : Nat) (v : Word) :
    readLE (writeLE m a n v) a n = v.toNat % 2 ^ (8 * n) := by
  induction n generalizing m a v with
  | zero => simp [readLE, Nat.mod_one]
  | succ n ih =>
    have hb : read (writeLE m a (n + 1) v) a = v.setWidth 8 := by
      rw [read_writeLE h, if_pos (by omega), Nat.sub_self]
      exact BitVec.eq_of_getLsbD_eq fun i hi => by simp [hi]
    rw [readLE, hb, writeLE, ih (write_wf h a _), BitVec.toNat_setWidth, BitVec.toNat_ushiftRight,
      Nat.shiftRight_eq_div_pow, show 8 * (n + 1) = 8 + 8 * n by omega, Nat.pow_add, Nat.mod_mul]

end Memory

end Sys2Proof.Machine
end

