-- ==== Sys2Proof/Laws/Boot.lean ====
section
/-! SUPPORT. The boot image (70_reset_and_hazards.md R236): what placing one segment does. -/

namespace Sys2Proof.Machine

namespace Memory

/-- Writing consecutive bytes keeps the canonical form. -/
theorem writeBytes_wf {m : Memory} (h : wf m) (a : Nat) (bs : List Byte) : wf (writeBytes m a bs) := by
  induction bs generalizing m a with
  | nil => exact h
  | cons b bs ih => exact ih (write_wf h a b) (a + 1)

/-- Every cell of the written memory is one of the written bytes or an old one. -/
theorem mem_writeBytes {m : Memory} {a : Nat} {bs : List Byte} {c : Host.Cell}
    (h : c ∈ writeBytes m a bs) : (a ≤ c.1 ∧ c.1 < a + bs.length) ∨ c ∈ m := by
  induction bs generalizing m a with
  | nil => exact .inr h
  | cons b bs ih =>
    rw [List.length_cons]
    rcases ih h with h | h
    · left; omega
    · rcases mem_write h with rfl | h
      · left; simp only; omega
      · exact .inr h

/-- Reading one byte after writing consecutive bytes. -/
theorem read_writeBytes {m : Memory} (h : wf m) (a : Nat) (bs : List Byte) (x : Nat) :
    read (writeBytes m a bs) x = if a ≤ x then (bs[x - a]?).getD (read m x) else read m x := by
  induction bs generalizing m a with
  | nil => simp [writeBytes]
  | cons b bs ih =>
    rw [writeBytes, ih (write_wf h a b), read_write h]
    by_cases hx : a = x
    · subst hx; simp
    · by_cases hax : a ≤ x
      · rw [if_pos hax, if_pos (by omega), if_neg hx, show x - a = (x - (a + 1)) + 1 by omega,
          List.getElem?_cons_succ]
      · rw [if_neg hax, if_neg (by omega), if_neg hx]

end Memory

namespace Segment

variable {m : Memory} (g : Segment)

theorem place_wf (h : m.wf) : (g.place m).wf := Memory.writeBytes_wf h _ _

/-- The bytes placed are as many as the segment's size in memory. -/
theorem placed_length (hl : g.bytes.length ≤ g.memSize) :
    (g.bytes ++ List.replicate (g.memSize - g.bytes.length) 0#8).length = g.memSize := by
  simp
  omega

/-- Inside the segment memory reads as the segment says, outside it as before. -/
theorem read_place (h : m.wf) (hl : g.bytes.length ≤ g.memSize) (a : Nat) :
    (g.Covers a → (g.place m).read a = g.byteAt a) ∧ (¬ g.Covers a → (g.place m).read a = m.read a) := by
  have hlen := g.placed_length hl
  rw [place, Memory.read_writeBytes h]
  unfold Covers byteAt
  refine ⟨fun ⟨h1, h2⟩ => ?_, fun hc => ?_⟩
  · rw [if_pos h1, List.getElem?_append]
    split
    · rename_i hin
      rw [List.getElem?_eq_getElem hin]
      rfl
    · rw [List.getElem?_eq_none (l := g.bytes) (by omega), List.getElem?_replicate, if_pos (by omega)]
      rfl
  · by_cases h1 : g.vaddr.toNat ≤ a
    · rw [if_pos h1, List.getElem?_eq_none (by omega)]
      rfl
    · rw [if_neg h1]

/-- Placing a segment that fits keeps memory in the window. -/
theorem place_in {c : Config} (hf : g.Fits c) (h : MemInWindow c m) : MemInWindow c (g.place m) := by
  intro cell hc
  rcases Memory.mem_writeBytes hc with h' | h'
  · rw [placed_length g hf.1] at h'
    have := hf.2
    omega
  · exact h cell h'

end Segment

end Sys2Proof.Machine
end

