-- ==== Sys2Proof/Laws/Decode.lean ====
section
/-! SUPPORT. The decoder and the encoder: what each field of each format is (30_encoding.md R81, R82), which
class an opcode dispatches to (R89), how a table mask fixes the fields (R101), how a word is put together
again from its fields, and the fields as the numbers of 00_scope.md R9. -/

namespace Sys2Proof

open Machine

/-! ## The fields of a word laid out in a format -/

section
variable (f7 : BitVec 7) (rs2 rs1 : Reg) (f3 : BitVec 3) (rd : Reg) (op : BitVec 7)

theorem fieldOpcode_formatR : fieldOpcode (formatR f7 rs2 rs1 f3 rd op) = op := by
  refine BitVec.eq_of_getLsbD_eq fun i hi => ?_
  simp only [fieldOpcode, formatR, BitVec.getLsbD_extractLsb', BitVec.getLsbD_append]
  interval_cases i <;> simp

theorem fieldFunct3_formatR : fieldFunct3 (formatR f7 rs2 rs1 f3 rd op) = f3 := by
  refine BitVec.eq_of_getLsbD_eq fun i hi => ?_
  simp only [fieldFunct3, formatR, BitVec.getLsbD_extractLsb', BitVec.getLsbD_append]
  interval_cases i <;> simp

theorem fieldFunct7_formatR : fieldFunct7 (formatR f7 rs2 rs1 f3 rd op) = f7 := by
  refine BitVec.eq_of_getLsbD_eq fun i hi => ?_
  simp only [fieldFunct7, formatR, BitVec.getLsbD_extractLsb', BitVec.getLsbD_append]
  interval_cases i <;> simp

theorem fieldRd_formatR : fieldRd (formatR f7 rs2 rs1 f3 rd op) = rd := by
  refine congrArg BitVec.toFin (?_ : _ = regBits rd)
  refine BitVec.eq_of_getLsbD_eq fun i hi => ?_
  simp only [formatR, BitVec.getLsbD_extractLsb', BitVec.getLsbD_append]
  interval_cases i <;> simp

theorem fieldRs1_formatR : fieldRs1 (formatR f7 rs2 rs1 f3 rd op) = rs1 := by
  refine congrArg BitVec.toFin (?_ : _ = regBits rs1)
  refine BitVec.eq_of_getLsbD_eq fun i hi => ?_
  simp only [formatR, BitVec.getLsbD_extractLsb', BitVec.getLsbD_append]
  interval_cases i <;> simp

theorem fieldRs2_formatR : fieldRs2 (formatR f7 rs2 rs1 f3 rd op) = rs2 := by
  refine congrArg BitVec.toFin (?_ : _ = regBits rs2)
  refine BitVec.eq_of_getLsbD_eq fun i hi => ?_
  simp only [formatR, BitVec.getLsbD_extractLsb', BitVec.getLsbD_append]
  interval_cases i <;> simp

end

section
variable (imm : BitVec 12) (rs1 : Reg) (f3 : BitVec 3) (rd : Reg) (op : BitVec 7)

theorem fieldOpcode_formatI : fieldOpcode (formatI imm rs1 f3 rd op) = op := by
  refine BitVec.eq_of_getLsbD_eq fun i hi => ?_
  simp only [fieldOpcode, formatI, BitVec.getLsbD_extractLsb', BitVec.getLsbD_append]
  interval_cases i <;> simp

theorem fieldFunct3_formatI : fieldFunct3 (formatI imm rs1 f3 rd op) = f3 := by
  refine BitVec.eq_of_getLsbD_eq fun i hi => ?_
  simp only [fieldFunct3, formatI, BitVec.getLsbD_extractLsb', BitVec.getLsbD_append]
  interval_cases i <;> simp

theorem fieldImmI_formatI : fieldImmI (formatI imm rs1 f3 rd op) = imm := by
  refine BitVec.eq_of_getLsbD_eq fun i hi => ?_
  simp only [fieldImmI, formatI, BitVec.getLsbD_extractLsb', BitVec.getLsbD_append]
  interval_cases i <;> simp

theorem fieldRd_formatI : fieldRd (formatI imm rs1 f3 rd op) = rd := by
  refine congrArg BitVec.toFin (?_ : _ = regBits rd)
  refine BitVec.eq_of_getLsbD_eq fun i hi => ?_
  simp only [formatI, BitVec.getLsbD_extractLsb', BitVec.getLsbD_append]
  interval_cases i <;> simp

theorem fieldRs1_formatI : fieldRs1 (formatI imm rs1 f3 rd op) = rs1 := by
  refine congrArg BitVec.toFin (?_ : _ = regBits rs1)
  refine BitVec.eq_of_getLsbD_eq fun i hi => ?_
  simp only [formatI, BitVec.getLsbD_extractLsb', BitVec.getLsbD_append]
  interval_cases i <;> simp

end

section
variable (imm : BitVec 12) (rs2 rs1 : Reg) (f3 : BitVec 3) (op : BitVec 7)

theorem fieldOpcode_formatS : fieldOpcode (formatS imm rs2 rs1 f3 op) = op := by
  refine BitVec.eq_of_getLsbD_eq fun i hi => ?_
  simp only [fieldOpcode, formatS, BitVec.getLsbD_extractLsb', BitVec.getLsbD_append]
  interval_cases i <;> simp

theorem fieldFunct3_formatS : fieldFunct3 (formatS imm rs2 rs1 f3 op) = f3 := by
  refine BitVec.eq_of_getLsbD_eq fun i hi => ?_
  simp only [fieldFunct3, formatS, BitVec.getLsbD_extractLsb', BitVec.getLsbD_append]
  interval_cases i <;> simp

theorem fieldImmS_formatS : fieldImmS (formatS imm rs2 rs1 f3 op) = imm := by
  refine BitVec.eq_of_getLsbD_eq fun i hi => ?_
  simp only [fieldImmS, formatS, BitVec.getLsbD_extractLsb', BitVec.getLsbD_append]
  interval_cases i <;> simp

theorem fieldRs1_formatS : fieldRs1 (formatS imm rs2 rs1 f3 op) = rs1 := by
  refine congrArg BitVec.toFin (?_ : _ = regBits rs1)
  refine BitVec.eq_of_getLsbD_eq fun i hi => ?_
  simp only [formatS, BitVec.getLsbD_extractLsb', BitVec.getLsbD_append]
  interval_cases i <;> simp

theorem fieldRs2_formatS : fieldRs2 (formatS imm rs2 rs1 f3 op) = rs2 := by
  refine congrArg BitVec.toFin (?_ : _ = regBits rs2)
  refine BitVec.eq_of_getLsbD_eq fun i hi => ?_
  simp only [formatS, BitVec.getLsbD_extractLsb', BitVec.getLsbD_append]
  interval_cases i <;> simp

end

section
variable (off : BitVec 13) (rs2 rs1 : Reg) (f3 : BitVec 3) (op : BitVec 7)

theorem fieldOpcode_formatB : fieldOpcode (formatB off rs2 rs1 f3 op) = op := by
  refine BitVec.eq_of_getLsbD_eq fun i hi => ?_
  simp only [fieldOpcode, formatB, BitVec.getLsbD_extractLsb', BitVec.getLsbD_append]
  interval_cases i <;> simp

theorem fieldFunct3_formatB : fieldFunct3 (formatB off rs2 rs1 f3 op) = f3 := by
  refine BitVec.eq_of_getLsbD_eq fun i hi => ?_
  simp only [fieldFunct3, formatB, BitVec.getLsbD_extractLsb', BitVec.getLsbD_append]
  interval_cases i <;> simp

theorem fieldImmB_formatB (h : evenOffset off = true) : fieldImmB (formatB off rs2 rs1 f3 op) = off := by
  refine BitVec.eq_of_getLsbD_eq fun i hi => ?_
  simp only [fieldImmB, formatB, BitVec.getLsbD_extractLsb', BitVec.getLsbD_append]
  interval_cases i <;> simp_all [evenOffset]

theorem fieldRs1_formatB : fieldRs1 (formatB off rs2 rs1 f3 op) = rs1 := by
  refine congrArg BitVec.toFin (?_ : _ = regBits rs1)
  refine BitVec.eq_of_getLsbD_eq fun i hi => ?_
  simp only [formatB, BitVec.getLsbD_extractLsb', BitVec.getLsbD_append]
  interval_cases i <;> simp

theorem fieldRs2_formatB : fieldRs2 (formatB off rs2 rs1 f3 op) = rs2 := by
  refine congrArg BitVec.toFin (?_ : _ = regBits rs2)
  refine BitVec.eq_of_getLsbD_eq fun i hi => ?_
  simp only [formatB, BitVec.getLsbD_extractLsb', BitVec.getLsbD_append]
  interval_cases i <;> simp

end

section
variable (imm20 : BitVec 20) (rd : Reg) (op : BitVec 7)

theorem fieldOpcode_formatU : fieldOpcode (formatU imm20 rd op) = op := by
  refine BitVec.eq_of_getLsbD_eq fun i hi => ?_
  simp only [fieldOpcode, formatU, BitVec.getLsbD_extractLsb', BitVec.getLsbD_append]
  interval_cases i <;> simp

theorem fieldImmU_formatU : fieldImmU (formatU imm20 rd op) = imm20 := by
  refine BitVec.eq_of_getLsbD_eq fun i hi => ?_
  simp only [fieldImmU, formatU, BitVec.getLsbD_extractLsb', BitVec.getLsbD_append]
  interval_cases i <;> simp

theorem fieldRd_formatU : fieldRd (formatU imm20 rd op) = rd := by
  refine congrArg BitVec.toFin (?_ : _ = regBits rd)
  refine BitVec.eq_of_getLsbD_eq fun i hi => ?_
  simp only [formatU, BitVec.getLsbD_extractLsb', BitVec.getLsbD_append]
  interval_cases i <;> simp

end

section
variable (off : BitVec 21) (rd : Reg) (op : BitVec 7)

theorem fieldOpcode_formatJ : fieldOpcode (formatJ off rd op) = op := by
  refine BitVec.eq_of_getLsbD_eq fun i hi => ?_
  simp only [fieldOpcode, formatJ, BitVec.getLsbD_extractLsb', BitVec.getLsbD_append]
  interval_cases i <;> simp

theorem fieldImmJ_formatJ (h : evenOffset off = true) : fieldImmJ (formatJ off rd op) = off := by
  refine BitVec.eq_of_getLsbD_eq fun i hi => ?_
  simp only [fieldImmJ, formatJ, BitVec.getLsbD_extractLsb', BitVec.getLsbD_append]
  interval_cases i <;> simp_all [evenOffset]

theorem fieldRd_formatJ : fieldRd (formatJ off rd op) = rd := by
  refine congrArg BitVec.toFin (?_ : _ = regBits rd)
  refine BitVec.eq_of_getLsbD_eq fun i hi => ?_
  simp only [formatJ, BitVec.getLsbD_extractLsb', BitVec.getLsbD_append]
  interval_cases i <;> simp

end

/-- The shift amount and the six bits above it, in a word whose immediate they make up (R178). -/
theorem fieldShamt_formatI (f6 sh : BitVec 6) (rs1 : Reg) (f3 : BitVec 3) (rd : Reg) (op : BitVec 7) :
    fieldShamt (formatI (f6 ++ sh) rs1 f3 rd op) = sh := by
  refine BitVec.eq_of_getLsbD_eq fun i hi => ?_
  simp only [fieldShamt, formatI, BitVec.getLsbD_extractLsb', BitVec.getLsbD_append]
  interval_cases i <;> simp

theorem fieldFunct6_formatI (f6 sh : BitVec 6) (rs1 : Reg) (f3 : BitVec 3) (rd : Reg) (op : BitVec 7) :
    fieldFunct6 (formatI (f6 ++ sh) rs1 f3 rd op) = f6 := by
  refine BitVec.eq_of_getLsbD_eq fun i hi => ?_
  simp only [fieldFunct6, formatI, BitVec.getLsbD_extractLsb', BitVec.getLsbD_append]
  interval_cases i <;> simp

theorem fieldOpcode_system (rest : BitVec 25) (op : BitVec 7) : fieldOpcode (rest ++ op) = op := by
  refine BitVec.eq_of_getLsbD_eq fun i hi => ?_
  simp only [fieldOpcode, BitVec.getLsbD_extractLsb', BitVec.getLsbD_append]
  interval_cases i <;> simp

theorem fieldRest_system (rest : BitVec 25) (op : BitVec 7) : fieldRest (rest ++ op) = rest := by
  refine BitVec.eq_of_getLsbD_eq fun i hi => ?_
  simp only [fieldRest, BitVec.getLsbD_extractLsb', BitVec.getLsbD_append]
  interval_cases i <;> simp

/-! ## A word put together again from its fields -/

section
variable (w : InstrWord)

theorem regBits_fieldRd : regBits (fieldRd w) = w.extractLsb' 7 5 := rfl
theorem regBits_fieldRs1 : regBits (fieldRs1 w) = w.extractLsb' 15 5 := rfl
theorem regBits_fieldRs2 : regBits (fieldRs2 w) = w.extractLsb' 20 5 := rfl

theorem formatR_fields : formatR (fieldFunct7 w) (fieldRs2 w) (fieldRs1 w) (fieldFunct3 w) (fieldRd w) (fieldOpcode w) = w := by
  refine BitVec.eq_of_getLsbD_eq fun i hi => ?_
  simp only [formatR, fieldFunct7, regBits_fieldRs2, regBits_fieldRs1, fieldFunct3, regBits_fieldRd, fieldOpcode,
    BitVec.getLsbD_extractLsb', BitVec.getLsbD_append]
  interval_cases i <;> simp

theorem formatI_fields : formatI (fieldImmI w) (fieldRs1 w) (fieldFunct3 w) (fieldRd w) (fieldOpcode w) = w := by
  refine BitVec.eq_of_getLsbD_eq fun i hi => ?_
  simp only [formatI, fieldImmI, regBits_fieldRs1, fieldFunct3, regBits_fieldRd, fieldOpcode,
    BitVec.getLsbD_extractLsb', BitVec.getLsbD_append]
  interval_cases i <;> simp

theorem formatS_fields : formatS (fieldImmS w) (fieldRs2 w) (fieldRs1 w) (fieldFunct3 w) (fieldOpcode w) = w := by
  refine BitVec.eq_of_getLsbD_eq fun i hi => ?_
  simp only [formatS, fieldImmS, regBits_fieldRs2, regBits_fieldRs1, fieldFunct3, fieldOpcode,
    BitVec.getLsbD_extractLsb', BitVec.getLsbD_append]
  interval_cases i <;> simp

theorem formatB_fields : formatB (fieldImmB w) (fieldRs2 w) (fieldRs1 w) (fieldFunct3 w) (fieldOpcode w) = w := by
  refine BitVec.eq_of_getLsbD_eq fun i hi => ?_
  simp only [formatB, fieldImmB, regBits_fieldRs2, regBits_fieldRs1, fieldFunct3, fieldOpcode,
    BitVec.getLsbD_extractLsb', BitVec.getLsbD_append]
  interval_cases i <;> simp

theorem formatU_fields : formatU (fieldImmU w) (fieldRd w) (fieldOpcode w) = w := by
  refine BitVec.eq_of_getLsbD_eq fun i hi => ?_
  simp only [formatU, fieldImmU, regBits_fieldRd, fieldOpcode,
    BitVec.getLsbD_extractLsb', BitVec.getLsbD_append]
  interval_cases i <;> simp

theorem formatJ_fields : formatJ (fieldImmJ w) (fieldRd w) (fieldOpcode w) = w := by
  refine BitVec.eq_of_getLsbD_eq fun i hi => ?_
  simp only [formatJ, fieldImmJ, regBits_fieldRd, fieldOpcode,
    BitVec.getLsbD_extractLsb', BitVec.getLsbD_append]
  interval_cases i <;> simp

theorem shift_fields : fieldFunct6 w ++ fieldShamt w = fieldImmI w := by
  refine BitVec.eq_of_getLsbD_eq fun i hi => ?_
  simp only [fieldFunct6, fieldShamt, fieldImmI, BitVec.getLsbD_extractLsb', BitVec.getLsbD_append]
  interval_cases i <;> simp

theorem system_fields : (fieldRest w ++ fieldOpcode w : InstrWord) = w := by
  refine BitVec.eq_of_getLsbD_eq fun i hi => ?_
  simp only [fieldRest, fieldOpcode, BitVec.getLsbD_extractLsb', BitVec.getLsbD_append]
  interval_cases i <;> simp

theorem evenOffset_fieldImmB : evenOffset (fieldImmB w) = true := by
  simp only [evenOffset, fieldImmB, BitVec.getLsbD_append]
  simp

theorem evenOffset_fieldImmJ : evenOffset (fieldImmJ w) = true := by
  simp only [evenOffset, fieldImmJ, BitVec.getLsbD_append]
  simp

end

/-! ## Which class an opcode dispatches to (R89, R96) -/

theorem ne_zero_of_fieldOpcode {w : InstrWord} {op : BitVec 7} (h : fieldOpcode w = op) (hop : op ≠ 0#7) :
    w ≠ 0#32 := by
  rintro rfl
  exact hop h.symm

section
variable {w : InstrWord} (e : Bool)

theorem decode_zero : decode e 0#32 = .instr .halt := rfl

theorem decode_lui (h : fieldOpcode w = 0b0110111#7) :
    decode e w
      = .instr (.lui (fieldRd w) (fieldImmU w)) := by
  simp [decode, h, ne_zero_of_fieldOpcode h (by decide)]

theorem decode_auipc (h : fieldOpcode w = 0b0010111#7) :
    decode e w
      = .instr (.auipc (fieldRd w) (fieldImmU w)) := by
  simp [decode, h, ne_zero_of_fieldOpcode h (by decide)]

theorem decode_jal (h : fieldOpcode w = 0b1101111#7) :
    decode e w
      = .instr (.jal (fieldRd w) (fieldImmJ w)) := by
  simp [decode, h, ne_zero_of_fieldOpcode h (by decide)]

theorem decode_jalr (h : fieldOpcode w = 0b1100111#7) :
    decode e w
      = if fieldFunct3 w = 0b000#3 then .instr (.jalr (fieldRd w) (fieldRs1 w) (fieldImmI w))
        else .illegal .jalrFunct3 := by
  simp [decode, h, ne_zero_of_fieldOpcode h (by decide)]

theorem decode_branch (h : fieldOpcode w = 0b1100011#7) :
    decode e w
      = decodeBranch w := by
  simp [decode, h, ne_zero_of_fieldOpcode h (by decide)]

theorem decode_load (h : fieldOpcode w = 0b0000011#7) :
    decode e w
      = decodeLoad w := by
  simp [decode, h, ne_zero_of_fieldOpcode h (by decide)]

theorem decode_store (h : fieldOpcode w = 0b0100011#7) :
    decode e w
      = decodeStore w := by
  simp [decode, h, ne_zero_of_fieldOpcode h (by decide)]

theorem decode_opImm (h : fieldOpcode w = 0b0010011#7) :
    decode e w
      = decodeOpImm e w := by
  simp [decode, h, ne_zero_of_fieldOpcode h (by decide)]

theorem decode_op (h : fieldOpcode w = 0b0110011#7) :
    decode e w
      = decodeOp w := by
  simp [decode, h, ne_zero_of_fieldOpcode h (by decide)]

theorem decode_system (h : fieldOpcode w = 0b1110011#7) :
    decode e w
      = .instr (.system (fieldRest w)) := by
  simp [decode, h, ne_zero_of_fieldOpcode h (by decide)]

/-- A nonzero word whose opcode is none of the ten of R89 is illegal. -/
theorem decode_other (h0 : w ≠ 0#32)
    (h : fieldOpcode w ∉ [0x37#7, 0x17#7, 0x6F#7, 0x67#7, 0x63#7, 0x03#7, 0x23#7, 0x13#7, 0x33#7, 0x73#7]) :
    decode e w = .illegal .opcode := by
  simp only [List.mem_cons, List.not_mem_nil, or_false, not_or] at h
  simp [decode, h0, h]

/-- The class a word is in: the zero word, one of the ten opcodes, or none (R89, R96). -/
theorem opcode_cases (w : InstrWord) :
    w = 0#32 ∨ fieldOpcode w = 0b0110111#7 ∨ fieldOpcode w = 0b0010111#7 ∨ fieldOpcode w = 0b1101111#7
    ∨ fieldOpcode w = 0b1100111#7 ∨ fieldOpcode w = 0b1100011#7 ∨ fieldOpcode w = 0b0000011#7
    ∨ fieldOpcode w = 0b0100011#7 ∨ fieldOpcode w = 0b0010011#7 ∨ fieldOpcode w = 0b0110011#7
    ∨ fieldOpcode w = 0b1110011#7
    ∨ (w ≠ 0#32
      ∧ fieldOpcode w ∉ [0x37#7, 0x17#7, 0x6F#7, 0x67#7, 0x63#7, 0x03#7, 0x23#7, 0x13#7, 0x33#7, 0x73#7]) := by
  simp only [List.mem_cons, List.not_mem_nil, or_false, not_or]
  tauto

end

/-! ## What a table mask fixes (R101) -/

section
variable {w p m : InstrWord} (h : w &&& m = p)
include h

theorem extract_of_mask (lo n : Nat) (hm : m.extractLsb' lo n = BitVec.allOnes n) :
    w.extractLsb' lo n = p.extractLsb' lo n := by
  have := congrArg (BitVec.extractLsb' lo n) h
  rwa [BitVec.extractLsb'_and, hm, BitVec.and_allOnes] at this

theorem fieldOpcode_of_mask (hm : m.extractLsb' 0 7 = BitVec.allOnes 7) : fieldOpcode w = fieldOpcode p :=
  extract_of_mask h 0 7 hm

theorem fieldFunct3_of_mask (hm : m.extractLsb' 12 3 = BitVec.allOnes 3) : fieldFunct3 w = fieldFunct3 p :=
  extract_of_mask h 12 3 hm

theorem fieldFunct7_of_mask (hm : m.extractLsb' 25 7 = BitVec.allOnes 7) : fieldFunct7 w = fieldFunct7 p :=
  extract_of_mask h 25 7 hm

theorem fieldFunct6_of_mask (hm : m.extractLsb' 26 6 = BitVec.allOnes 6) : fieldFunct6 w = fieldFunct6 p :=
  extract_of_mask h 26 6 hm

end

/-! ## What a table mask keeps of a word (R101) -/

section
variable (w : InstrWord)

/-- A row mask over the opcode alone. -/
theorem and_mask_opcode : w &&& 0x0000007F#32 = 0#25 ++ fieldOpcode w := by
  refine BitVec.eq_of_getLsbD_eq fun i hi => ?_
  simp only [fieldOpcode, BitVec.getLsbD_and, BitVec.getLsbD_extractLsb',
    BitVec.getLsbD_append]
  interval_cases i <;> simp

/-- A row mask over the opcode and funct3. -/
theorem and_mask_funct3 : w &&& 0x0000707F#32 = 0#17 ++ fieldFunct3 w ++ 0#5 ++ fieldOpcode w := by
  refine BitVec.eq_of_getLsbD_eq fun i hi => ?_
  simp only [fieldOpcode, fieldFunct3, BitVec.getLsbD_and, BitVec.getLsbD_extractLsb',
    BitVec.getLsbD_append]
  interval_cases i <;> simp

/-- A row mask over the opcode, funct3 and funct7. -/
theorem and_mask_funct7 :
    w &&& 0xFE00707F#32 = fieldFunct7 w ++ 0#10 ++ fieldFunct3 w ++ 0#5 ++ fieldOpcode w := by
  refine BitVec.eq_of_getLsbD_eq fun i hi => ?_
  simp only [fieldOpcode, fieldFunct3, fieldFunct7, BitVec.getLsbD_and, BitVec.getLsbD_extractLsb',
    BitVec.getLsbD_append]
  interval_cases i <;> simp

/-- A row mask over the opcode, funct3 and `w[31:26]`. -/
theorem and_mask_funct6 :
    w &&& 0xFC00707F#32 = fieldFunct6 w ++ 0#11 ++ fieldFunct3 w ++ 0#5 ++ fieldOpcode w := by
  refine BitVec.eq_of_getLsbD_eq fun i hi => ?_
  simp only [fieldOpcode, fieldFunct3, fieldFunct6, BitVec.getLsbD_and, BitVec.getLsbD_extractLsb',
    BitVec.getLsbD_append]
  interval_cases i <;> simp

end

/-! ## The fields as numbers (R9) -/

section
variable (w : InstrWord)

theorem toNat_extract (lo n : Nat) : (w.extractLsb' lo n).toNat = w.toNat / 2 ^ lo % 2 ^ n := by
  rw [BitVec.extractLsb'_toNat, Nat.shiftRight_eq_div_pow]

theorem bitsOf_opcode : bitsOf w 6 0 = (fieldOpcode w).toNat := (toNat_extract w 0 7).symm
theorem bitsOf_funct3 : bitsOf w 14 12 = (fieldFunct3 w).toNat := (toNat_extract w 12 3).symm
theorem bitsOf_funct7 : bitsOf w 31 25 = (fieldFunct7 w).toNat := (toNat_extract w 25 7).symm
theorem bitsOf_funct6 : bitsOf w 31 26 = (fieldFunct6 w).toNat := (toNat_extract w 26 6).symm

theorem regAt_rd : regAt w 7 = fieldRd w := by
  refine Fin.ext ?_
  rw [regAt, bitsOf, ← toNat_extract]
  exact Nat.mod_eq_of_lt (w.extractLsb' 7 5).isLt

theorem regAt_rs1 : regAt w 15 = fieldRs1 w := by
  refine Fin.ext ?_
  rw [regAt, bitsOf, ← toNat_extract]
  exact Nat.mod_eq_of_lt (w.extractLsb' 15 5).isLt

theorem regAt_rs2 : regAt w 20 = fieldRs2 w := by
  refine Fin.ext ?_
  rw [regAt, bitsOf, ← toNat_extract]
  exact Nat.mod_eq_of_lt (w.extractLsb' 20 5).isLt

theorem immIBits_eq : immIBits w = fieldImmI w := by
  rw [immIBits, bitsOf, ← toNat_extract, BitVec.ofNat_toNat, BitVec.setWidth_eq]
  rfl

theorem immUBits_eq : immUBits w = fieldImmU w := by
  rw [immUBits, bitsOf, ← toNat_extract, BitVec.ofNat_toNat, BitVec.setWidth_eq]
  rfl

theorem shamtBits_eq : shamtBits w = fieldShamt w := by
  rw [shamtBits, bitsOf, ← toNat_extract, BitVec.ofNat_toNat, BitVec.setWidth_eq]
  rfl

/-- The number of a concatenation. -/
theorem toNat_append_eq {m n : Nat} (x : BitVec m) (y : BitVec n) :
    (x ++ y).toNat = x.toNat * 2 ^ n + y.toNat := by
  rw [BitVec.toNat_append, Nat.shiftLeft_eq, Nat.mul_comm, ← Nat.two_pow_add_eq_or_of_lt y.isLt]

theorem immSBits_eq : immSBits w = fieldImmS w := by
  have e0 : bitsOf w 31 25 = (w.extractLsb' 25 7).toNat := (toNat_extract w 25 7).symm
  have l0 := (w.extractLsb' 25 7).isLt
  have e1 : bitsOf w 11 7 = (w.extractLsb' 7 5).toNat := (toNat_extract w 7 5).symm
  have l1 := (w.extractLsb' 7 5).isLt
  refine BitVec.eq_of_toNat_eq ?_
  simp only [fieldImmS, immSBits, BitVec.toNat_ofNat, toNat_append_eq, e0, e1]
  omega

theorem immBBits_eq : immBBits w = fieldImmB w := by
  have e0 : bitsOf w 31 31 = (w.extractLsb' 31 1).toNat := (toNat_extract w 31 1).symm
  have l0 := (w.extractLsb' 31 1).isLt
  have e1 : bitsOf w 7 7 = (w.extractLsb' 7 1).toNat := (toNat_extract w 7 1).symm
  have l1 := (w.extractLsb' 7 1).isLt
  have e2 : bitsOf w 30 25 = (w.extractLsb' 25 6).toNat := (toNat_extract w 25 6).symm
  have l2 := (w.extractLsb' 25 6).isLt
  have e3 : bitsOf w 11 8 = (w.extractLsb' 8 4).toNat := (toNat_extract w 8 4).symm
  have l3 := (w.extractLsb' 8 4).isLt
  refine BitVec.eq_of_toNat_eq ?_
  simp only [fieldImmB, immBBits, BitVec.toNat_ofNat, toNat_append_eq, e0, e1, e2, e3]
  omega

theorem immJBits_eq : immJBits w = fieldImmJ w := by
  have e0 : bitsOf w 31 31 = (w.extractLsb' 31 1).toNat := (toNat_extract w 31 1).symm
  have l0 := (w.extractLsb' 31 1).isLt
  have e1 : bitsOf w 19 12 = (w.extractLsb' 12 8).toNat := (toNat_extract w 12 8).symm
  have l1 := (w.extractLsb' 12 8).isLt
  have e2 : bitsOf w 20 20 = (w.extractLsb' 20 1).toNat := (toNat_extract w 20 1).symm
  have l2 := (w.extractLsb' 20 1).isLt
  have e3 : bitsOf w 30 21 = (w.extractLsb' 21 10).toNat := (toNat_extract w 21 10).symm
  have l3 := (w.extractLsb' 21 10).isLt
  refine BitVec.eq_of_toNat_eq ?_
  simp only [fieldImmJ, immJBits, BitVec.toNat_ofNat, toNat_append_eq, e0, e1, e2, e3]
  omega

end

/-! ## Bytes -/

/-- Decoding the four bytes of a word is decoding the word. -/
theorem decodeBytes_wordBytes (e : Bool) (w : InstrWord) (rest : List Byte) :
    decodeBytes e (wordBytes w ++ rest) = (decode e w, rest) := by
  have h : (w.extractLsb' 24 8 ++ w.extractLsb' 16 8 ++ w.extractLsb' 8 8 ++ w.extractLsb' 0 8 : InstrWord)
      = w := by
    refine BitVec.eq_of_getLsbD_eq fun i hi => ?_
    simp only [BitVec.getLsbD_extractLsb', BitVec.getLsbD_append]
    interval_cases i <;> simp
  simp [wordBytes, decodeBytes, h]

end Sys2Proof
end

