-- ==== Sys2Proof/Laws/Operands.lean ====
section
/-! SUPPORT. Extension, immediates and comparisons as the numbers of 00_scope.md R10: what each operation of
Machine/Operands.lean and Machine/Flags.lean is, once. -/

namespace Sys2Proof.Machine

/-! ## Comparisons -/

@[simp] theorem lessSigned_iff (a b : Word) : lessSigned a b = true ↔ a.toInt < b.toInt := by
  simp [lessSigned]

@[simp] theorem lessUnsigned_iff (a b : Word) : lessUnsigned a b = true ↔ a.toNat < b.toNat := by
  simp [lessUnsigned]

@[simp] theorem equalWords_iff (a b : Word) : equalWords a b = true ↔ a = b := by
  simp [equalWords]

/-- The value of a set-less-than, for a comparison that decides `p`. -/
theorem boolWord_eq {c : Bool} {p : Prop} [Decidable p] (h : c = true ↔ p) :
    boolWord c = if p then 1#64 else 0#64 := by
  by_cases hp : p
  · simp [boolWord, h.2 hp, hp]
  · have hc : c = false := by simpa using mt h.1 hp
    simp [boolWord, hc, hp]

/-! ## Extension -/

/-- `2^n` is twice half the range. -/
theorem two_pow_half {n : Nat} (hn : 0 < n) : 2 ^ n = 2 * 2 ^ (n - 1) := by
  rw [← Nat.pow_succ']
  congr 1
  omega

/-- A number of `n` bits kept as a 64-bit pattern, and cut back to `n` bits. -/
theorem setWidth_ofNat {n v : Nat} (hn : n ≤ 64) (h : v < 2 ^ n) :
    (BitVec.ofNat 64 v).setWidth n = BitVec.ofNat n v := by
  have : 2 ^ n ≤ 2 ^ 64 := Nat.pow_le_pow_right (by decide) hn
  refine BitVec.eq_of_toNat_eq ?_
  rw [BitVec.toNat_setWidth, BitVec.toNat_ofNat, BitVec.toNat_ofNat, Nat.mod_eq_of_lt (a := v) (by omega)]

/-- Sign extension of a number of `n` bits (R10). -/
theorem sext_ofNat {n v : Nat} (hn : 0 < n) (hn' : n ≤ 64) (h : v < 2 ^ n) :
    sext n (BitVec.ofNat 64 v) = signedOf n v := by
  rw [sext, setWidth_ofNat hn' h, signedOf, BitVec.signExtend]
  congr 1
  rw [BitVec.toInt_eq_toNat_cond, BitVec.toNat_ofNat, Nat.mod_eq_of_lt h]
  have := two_pow_half hn
  split <;> split <;> first | rfl | omega

/-- Zero extension of a number of `n` bits (R10). -/
theorem zext_ofNat {n v : Nat} (hn : n ≤ 64) (h : v < 2 ^ n) :
    zext n (BitVec.ofNat 64 v) = unsignedOf v := by
  refine BitVec.eq_of_toNat_eq ?_
  have : 2 ^ n ≤ 2 ^ 64 := Nat.pow_le_pow_right (by decide) hn
  rw [zext, unsignedOf, setWidth_ofNat hn h, BitVec.toNat_setWidth, BitVec.toNat_ofNat, BitVec.toNat_ofNat,
    Nat.mod_eq_of_lt h]

/-- The sign extension of a field of `n` bits whose number is `v` (R83). -/
theorem isSignedField_signExtend {n v : Nat} {x : BitVec n} (hn : 0 < n) (hn' : n ≤ 64) (h : x.toNat = v) :
    IsSignedField n v (x.signExtend 64) := by
  subst h
  have h1 := two_pow_half hn
  have h2 := Nat.two_pow_pos (n - 1)
  have h3 : (2 : Int) ^ n = ((2 ^ n : Nat) : Int) := by simp
  have h4 : (2 : Int) ^ (n - 1) = ((2 ^ (n - 1) : Nat) : Int) := by simp
  have h5 := x.isLt
  rw [IsSignedField, BitVec.toInt_signExtend_of_le hn', BitVec.toInt_eq_toNat_cond, h3, h4]
  split <;> split <;> refine ⟨?_, ?_, ?_⟩ <;> omega

/-! ## Immediates -/

theorem immI_toInt (imm : BitVec 12) : (immI imm).toInt = imm.toInt := by
  rw [immI, BitVec.toInt_signExtend_of_le (by decide)]

/-- The U-immediate is the field as a signed number, times 4096 (R86). -/
theorem immU_eq (imm20 : BitVec 20) : immU imm20 = BitVec.ofInt 64 (imm20.toInt * 4096) := by
  refine BitVec.eq_of_toInt_eq ?_
  rw [immU, BitVec.toInt_signExtend_of_le (by decide)]
  have := imm20.isLt
  rw [BitVec.toInt_ofInt, BitVec.toInt_eq_toNat_bmod, BitVec.toInt_eq_toNat_bmod, toNat_append_eq]
  simp [Int.bmod_def]
  omega

/-- Bit 0 of a pattern is its parity. -/
theorem toNat_even_iff (x : Word) : x.toNat % 2 = 0 ↔ x.getLsbD 0 = false := by
  rw [BitVec.getLsbD, Nat.testBit_zero]
  simp

/-- An even B-immediate keeps an even pc even (R85, R29). -/
theorem even_pc_immB {pc : Word} {off : BitVec 13} (hp : pc.toNat % 2 = 0) (h : evenOffset off = true) :
    (pc + immB off).toNat % 2 = 0 := by
  have h1 : (immB off).toNat % 2 = 0 := by
    rw [toNat_even_iff, immB, BitVec.getLsbD_signExtend]
    simpa [evenOffset] using h
  rw [BitVec.toNat_add]
  omega

/-- An even J-immediate keeps an even pc even (R87, R29). -/
theorem even_pc_immJ {pc : Word} {off : BitVec 21} (hp : pc.toNat % 2 = 0) (h : evenOffset off = true) :
    (pc + immJ off).toNat % 2 = 0 := by
  have h1 : (immJ off).toNat % 2 = 0 := by
    rw [toNat_even_iff, immJ, BitVec.getLsbD_signExtend]
    simpa [evenOffset] using h
  rw [BitVec.toNat_add]
  omega

end Sys2Proof.Machine
end

