-- ==== Sys2Proof/Laws/State.lean ====
section
/-! SUPPORT. One lemma per field per update of State, true by rfl, so that no later proof unfolds a record
update; and the register file read after a write. -/

namespace Sys2Proof.Machine

variable (s : State) (rd : Reg) (v npc : Word) (st : Status) (k : Fault)

@[simp] theorem writeReg_pc : (s.writeReg rd v).pc = s.pc := rfl
@[simp] theorem writeReg_mem : (s.writeReg rd v).mem = s.mem := rfl
@[simp] theorem writeReg_status : (s.writeReg rd v).status = s.status := rfl
@[simp] theorem writeReg_steps : (s.writeReg rd v).steps = s.steps := rfl
@[simp] theorem writeReg_cfg : (s.writeReg rd v).cfg = s.cfg := rfl

@[simp] theorem forceX0_pc : s.forceX0.pc = s.pc := rfl
@[simp] theorem forceX0_mem : s.forceX0.mem = s.mem := rfl
@[simp] theorem forceX0_status : s.forceX0.status = s.status := rfl
@[simp] theorem forceX0_steps : s.forceX0.steps = s.steps := rfl
@[simp] theorem forceX0_cfg : s.forceX0.cfg = s.cfg := rfl

@[simp] theorem commit_regs : (s.commit npc).regs = s.regs := rfl
@[simp] theorem commit_pc : (s.commit npc).pc = npc := rfl
@[simp] theorem commit_mem : (s.commit npc).mem = s.mem := rfl
@[simp] theorem commit_status : (s.commit npc).status = s.status := rfl
@[simp] theorem commit_steps : (s.commit npc).steps = s.steps + 1 := rfl
@[simp] theorem commit_cfg : (s.commit npc).cfg = s.cfg := rfl

@[simp] theorem retire_pc : (s.retire npc).pc = npc := rfl
@[simp] theorem retire_mem : (s.retire npc).mem = s.mem := rfl
@[simp] theorem retire_status : (s.retire npc).status = s.status := rfl
@[simp] theorem retire_steps : (s.retire npc).steps = s.steps + 1 := rfl
@[simp] theorem retire_cfg : (s.retire npc).cfg = s.cfg := rfl

@[simp] theorem retireReg_pc : (s.retireReg rd v npc).pc = npc := rfl
@[simp] theorem retireReg_mem : (s.retireReg rd v npc).mem = s.mem := rfl
@[simp] theorem retireReg_status : (s.retireReg rd v npc).status = s.status := rfl
@[simp] theorem retireReg_steps : (s.retireReg rd v npc).steps = s.steps + 1 := rfl
@[simp] theorem retireReg_cfg : (s.retireReg rd v npc).cfg = s.cfg := rfl

@[simp] theorem stop_regs : (s.stop st).regs = s.regs := rfl
@[simp] theorem stop_pc : (s.stop st).pc = s.pc := rfl
@[simp] theorem stop_mem : (s.stop st).mem = s.mem := rfl
@[simp] theorem stop_status : (s.stop st).status = st := rfl
@[simp] theorem stop_steps : (s.stop st).steps = s.steps := rfl
@[simp] theorem stop_cfg : (s.stop st).cfg = s.cfg := rfl

@[simp] theorem raise_regs : (s.raise k).regs = s.regs := rfl
@[simp] theorem raise_pc : (s.raise k).pc = s.pc := rfl
@[simp] theorem raise_mem : (s.raise k).mem = s.mem := rfl
@[simp] theorem raise_status : (s.raise k).status = .fault k := rfl
@[simp] theorem raise_steps : (s.raise k).steps = s.steps := rfl
@[simp] theorem raise_cfg : (s.raise k).cfg = s.cfg := rfl

/-! ## The register file after a write

Each lemma twice: at a register, the form the statements use, and at a number below 32, the form that simp
brings an index to. -/

section
variable (r : Reg)

theorem writeReg_regs : (s.writeReg rd v).regs[r] = if r = rd then v else s.regs[r] := by
  simp only [State.writeReg, Fin.getElem_fin, Vector.getElem_set, Fin.ext_iff, eq_comm]

theorem forceX0_regs : s.forceX0.regs[r] = if r = 0 then 0#64 else s.regs[r] := by
  simp only [State.forceX0, Fin.getElem_fin, Vector.getElem_set, Fin.ext_iff, eq_comm]
  rfl

theorem retire_regs : (s.retire npc).regs[r] = if r = 0 then 0#64 else s.regs[r] :=
  forceX0_regs s r

theorem retireReg_regs :
    (s.retireReg rd v npc).regs[r] = if r = 0 then 0#64 else if r = rd then v else s.regs[r] := by
  simp only [State.retireReg, retire_regs, writeReg_regs]

end

section
variable {i : Nat} (hi : i < 32)

@[simp] theorem writeReg_regs_nat :
    (s.writeReg rd v).regs[i]'hi = if i = rd.val then v else s.regs[i]'hi := by
  simp only [State.writeReg, Vector.getElem_set, eq_comm]

@[simp] theorem forceX0_regs_nat : s.forceX0.regs[i]'hi = if i = 0 then 0#64 else s.regs[i]'hi := by
  simp only [State.forceX0, Vector.getElem_set, eq_comm]

@[simp] theorem retire_regs_nat :
    (s.retire npc).regs[i]'hi = if i = 0 then 0#64 else s.regs[i]'hi :=
  forceX0_regs_nat s hi

@[simp] theorem retireReg_regs_nat : (s.retireReg rd v npc).regs[i]'hi
    = if i = 0 then 0#64 else if i = rd.val then v else s.regs[i]'hi := by
  simp only [State.retireReg, retire_regs_nat, writeReg_regs_nat]

end

end Sys2Proof.Machine
end

