-- ==== Sys2Proof/Laws/Ops.lean ====
section
/-! SUPPORT. For each shared operation, once, everything it can do: the access check and the three memory
primitives (20_memory.md R53 to R55), the end of a step (40_sequencer.md R120, R121), taking a fault
(R123), and the common rules of the loads, stores, branches and register operations. -/

namespace Sys2Proof.Machine

/-! ## The access check -/

/-- The model's test is the negation of lying in the window. -/
theorem outside_iff {s : State} {addr : Word} {n : Nat} : s.outside addr n ↔ ¬ InWindow s addr n := by
  simp only [State.outside, InWindow]
  omega

/-- What a fetch can answer (R55). -/
theorem fetch32_cases (s : State) (addr : Word) :
    (addr.toNat % 4 ≠ 0 ∧ fetch32 s addr = .error (.fetchMisaligned addr)) ∨
    (addr.toNat % 4 = 0 ∧ ¬ InWindow s addr 4 ∧ fetch32 s addr = .error (.fetchOutOfRange addr)) ∨
    (addr.toNat % 4 = 0 ∧ InWindow s addr 4
      ∧ fetch32 s addr = .ok (BitVec.ofNat 32 (s.mem.readLE addr.toNat 4))) := by
  unfold fetch32
  by_cases h1 : misaligned addr 4
  · exact .inl ⟨h1, if_pos h1⟩
  · by_cases h2 : s.outside addr 4
    · exact .inr (.inl ⟨not_not.1 h1, outside_iff.1 h2, by rw [if_neg h1, if_pos h2]⟩)
    · exact .inr (.inr ⟨not_not.1 h1, not_not.1 (mt outside_iff.2 h2), by rw [if_neg h1, if_neg h2]⟩)

theorem fetch32_ok_iff {s : State} {addr : Word} {w : InstrWord} :
    fetch32 s addr = .ok w ↔ addr.toNat % 4 = 0 ∧ InWindow s addr 4
      ∧ w = BitVec.ofNat 32 (s.mem.readLE addr.toNat 4) := by
  rcases fetch32_cases s addr with ⟨h1, h⟩ | ⟨h1, h2, h⟩ | ⟨h1, h2, h⟩ <;> rw [h]
  · exact ⟨(fun e => by cases e), fun e => absurd e.1 h1⟩
  · exact ⟨(fun e => by cases e), fun e => absurd e.2.1 h2⟩
  · simp [h1, h2, eq_comm]

/-- What `MemRead` can answer (R53). -/
theorem memRead_cases (s : State) (addr : Word) (w : Width) :
    (addr.toNat % w.bytes ≠ 0 ∧ memRead s addr w = .error (.loadMisaligned addr w)) ∨
    (addr.toNat % w.bytes = 0 ∧ ¬ InWindow s addr w.bytes
      ∧ memRead s addr w = .error (.loadOutOfRange addr w)) ∨
    (addr.toNat % w.bytes = 0 ∧ InWindow s addr w.bytes
      ∧ memRead s addr w = .ok (BitVec.ofNat 64 (s.mem.readLE addr.toNat w.bytes))) := by
  unfold memRead
  by_cases h1 : misaligned addr w.bytes
  · exact .inl ⟨h1, if_pos h1⟩
  · by_cases h2 : s.outside addr w.bytes
    · exact .inr (.inl ⟨not_not.1 h1, outside_iff.1 h2, by rw [if_neg h1, if_pos h2]⟩)
    · exact .inr (.inr ⟨not_not.1 h1, not_not.1 (mt outside_iff.2 h2), by rw [if_neg h1, if_neg h2]⟩)

/-- What `MemWrite` can answer (R54). -/
theorem memWrite_cases (s : State) (addr : Word) (w : Width) (v : Word) :
    (addr.toNat % w.bytes ≠ 0 ∧ memWrite s addr w v = .error (.storeMisaligned addr w)) ∨
    (addr.toNat % w.bytes = 0 ∧ ¬ InWindow s addr w.bytes
      ∧ memWrite s addr w v = .error (.storeOutOfRange addr w)) ∨
    (addr.toNat % w.bytes = 0 ∧ InWindow s addr w.bytes
      ∧ memWrite s addr w v = .ok { s with mem := s.mem.writeLE addr.toNat w.bytes v }) := by
  unfold memWrite
  by_cases h1 : misaligned addr w.bytes
  · exact .inl ⟨h1, if_pos h1⟩
  · by_cases h2 : s.outside addr w.bytes
    · exact .inr (.inl ⟨not_not.1 h1, outside_iff.1 h2, by rw [if_neg h1, if_pos h2]⟩)
    · exact .inr (.inr ⟨not_not.1 h1, not_not.1 (mt outside_iff.2 h2), by rw [if_neg h1, if_neg h2]⟩)

/-! ## The end of a step -/

/-- An instruction that ends by writing `x[rd]` (R124). -/
theorem retireReg_writes (s : State) (rd : Reg) (v npc : Word) :
    WritesReg (.next (s.retireReg rd v npc)) s rd v npc :=
  ⟨_, rfl, retireReg_regs s rd v npc, fun _ => rfl, rfl, rfl, rfl, rfl⟩

/-- An instruction that writes no register and no memory. -/
theorem retire_moves (s : State) (npc : Word) : MovesTo (.next (s.retire npc)) s npc :=
  ⟨_, rfl, retire_regs s npc, fun _ => rfl, rfl, rfl, rfl, rfl⟩

/-- Ending the run changes the status and nothing else (R123). -/
theorem stop_ends (s : State) (st : Status) : EndsRun (.next (s.stop st)) s st :=
  ⟨_, rfl, rfl, rfl, rfl, rfl, rfl, rfl⟩

/-- Taking a fault (R211). -/
theorem raise_ends (s : State) (k : Fault) : EndsRun (.next (s.raise k)) s (.fault k) :=
  stop_ends s (.fault k)

/-! ## The common rules -/

/-- A load: the fault of R53, or the extended value in `x[rd]` (R150). -/
theorem loadWith_cases (w : Width) (ext : Word → Word) (rd rs1 : Reg) (imm : BitVec 12) (s : State) :
    (∃ k, memRead s (loadAddr s rs1 imm) w = .error k ∧ loadWith w ext rd rs1 imm s = s.raise k) ∨
    (∃ v, memRead s (loadAddr s rs1 imm) w = .ok v
      ∧ loadWith w ext rd rs1 imm s = s.retireReg rd (ext v) s.pcPlus4) := by
  unfold loadWith
  cases memRead s (loadAddr s rs1 imm) w with
  | error k => exact .inl ⟨k, rfl, rfl⟩
  | ok v => exact .inr ⟨v, rfl, rfl⟩

/-- A store: the fault of R54, or the written memory (R160). -/
theorem storeWith_cases (w : Width) (rs1 rs2 : Reg) (imm : BitVec 12) (s : State) :
    (∃ k, memWrite s (storeAddr s rs1 imm) w (s.readReg rs2) = .error k
      ∧ storeWith w rs1 rs2 imm s = s.raise k) ∨
    (∃ t, memWrite s (storeAddr s rs1 imm) w (s.readReg rs2) = .ok t
      ∧ storeWith w rs1 rs2 imm s = t.retire s.pcPlus4) := by
  unfold storeWith
  cases memWrite s (storeAddr s rs1 imm) w (s.readReg rs2) with
  | error k => exact .inl ⟨k, rfl, rfl⟩
  | ok v => exact .inr ⟨v, rfl, rfl⟩

/-- A branch goes to its target or to the next instruction (R140). -/
theorem branchIf_moves (taken : Bool) (off : BitVec 13) (s : State) :
    MovesTo (.next (branchIf taken off s)) s (if taken then s.pc + immB off else s.pcPlus4) :=
  retire_moves s _

theorem opImmWith_writes (op : Word → Word → Word) (rd rs1 : Reg) (imm : BitVec 12) (s : State) :
    WritesReg (.next (opImmWith op rd rs1 imm s)) s rd (op (s.readReg rs1) (immI imm)) s.pcPlus4 :=
  retireReg_writes s rd _ _

theorem shiftImmWith_writes (op : Word → Nat → Word) (rd rs1 : Reg) (shamt : BitVec 6) (s : State) :
    WritesReg (.next (shiftImmWith op rd rs1 shamt s)) s rd (op (s.readReg rs1) shamt.toNat) s.pcPlus4 :=
  retireReg_writes s rd _ _

theorem opWith_writes (op : Word → Word → Word) (rd rs1 rs2 : Reg) (s : State) :
    WritesReg (.next (opWith op rd rs1 rs2 s)) s rd (op (s.readReg rs1) (s.readReg rs2)) s.pcPlus4 :=
  retireReg_writes s rd _ _

end Sys2Proof.Machine
end

