-- ==== Sys2Proof/Laws/PerInstr.lean ====
section
/-! SUPPORT. The family RoundTrip: for each constructor of Instr, decoding the word the encoder gives the
instruction gives the instruction back, with every operand at every value the encoding admits
(30_encoding.md R81 to R95). -/

namespace Sys2Proof.Laws

/-- Decoding the encoding gives the instruction back, for either value of OPIMM_EXTRA under which its row
exists. -/
def RoundTrip.Statement (i : Instr) : Prop :=
  ∀ e : Bool, i.wellFormed = true → (i.row.extraOnly = true → e = true) → decode e (encode i) = .instr i

theorem RoundTrip.lui (rd : Reg) (imm20 : BitVec 20) : RoundTrip.Statement (.lui rd imm20) := by
  intro e _ _
  rw [encode, decode_lui e (fieldOpcode_formatU _ _ _), fieldRd_formatU, fieldImmU_formatU]

theorem RoundTrip.auipc (rd : Reg) (imm20 : BitVec 20) : RoundTrip.Statement (.auipc rd imm20) := by
  intro e _ _
  rw [encode, decode_auipc e (fieldOpcode_formatU _ _ _), fieldRd_formatU, fieldImmU_formatU]

theorem RoundTrip.jal (rd : Reg) (off : BitVec 21) : RoundTrip.Statement (.jal rd off) := by
  intro e h _
  rw [encode, decode_jal e (fieldOpcode_formatJ _ _ _), fieldRd_formatJ, fieldImmJ_formatJ _ _ _ h]

theorem RoundTrip.jalr (rd rs1 : Reg) (imm : BitVec 12) : RoundTrip.Statement (.jalr rd rs1 imm) := by
  intro e _ _
  rw [encode, decode_jalr e (fieldOpcode_formatI _ _ _ _ _), fieldFunct3_formatI, if_pos rfl,
    fieldRd_formatI, fieldRs1_formatI, fieldImmI_formatI]

theorem RoundTrip.beq (rs1 rs2 : Reg) (off : BitVec 13) : RoundTrip.Statement (.beq rs1 rs2 off) := by
  intro e h _
  rw [encode, decode_branch e (fieldOpcode_formatB _ _ _ _ _), decodeBranch, fieldFunct3_formatB,
    fieldRs1_formatB, fieldRs2_formatB, fieldImmB_formatB _ _ _ _ _ h]
  rfl

theorem RoundTrip.bne (rs1 rs2 : Reg) (off : BitVec 13) : RoundTrip.Statement (.bne rs1 rs2 off) := by
  intro e h _
  rw [encode, decode_branch e (fieldOpcode_formatB _ _ _ _ _), decodeBranch, fieldFunct3_formatB,
    fieldRs1_formatB, fieldRs2_formatB, fieldImmB_formatB _ _ _ _ _ h]
  rfl

theorem RoundTrip.blt (rs1 rs2 : Reg) (off : BitVec 13) : RoundTrip.Statement (.blt rs1 rs2 off) := by
  intro e h _
  rw [encode, decode_branch e (fieldOpcode_formatB _ _ _ _ _), decodeBranch, fieldFunct3_formatB,
    fieldRs1_formatB, fieldRs2_formatB, fieldImmB_formatB _ _ _ _ _ h]
  rfl

theorem RoundTrip.bge (rs1 rs2 : Reg) (off : BitVec 13) : RoundTrip.Statement (.bge rs1 rs2 off) := by
  intro e h _
  rw [encode, decode_branch e (fieldOpcode_formatB _ _ _ _ _), decodeBranch, fieldFunct3_formatB,
    fieldRs1_formatB, fieldRs2_formatB, fieldImmB_formatB _ _ _ _ _ h]
  rfl

theorem RoundTrip.bltu (rs1 rs2 : Reg) (off : BitVec 13) : RoundTrip.Statement (.bltu rs1 rs2 off) := by
  intro e h _
  rw [encode, decode_branch e (fieldOpcode_formatB _ _ _ _ _), decodeBranch, fieldFunct3_formatB,
    fieldRs1_formatB, fieldRs2_formatB, fieldImmB_formatB _ _ _ _ _ h]
  rfl

theorem RoundTrip.bgeu (rs1 rs2 : Reg) (off : BitVec 13) : RoundTrip.Statement (.bgeu rs1 rs2 off) := by
  intro e h _
  rw [encode, decode_branch e (fieldOpcode_formatB _ _ _ _ _), decodeBranch, fieldFunct3_formatB,
    fieldRs1_formatB, fieldRs2_formatB, fieldImmB_formatB _ _ _ _ _ h]
  rfl

theorem RoundTrip.lb (rd rs1 : Reg) (imm : BitVec 12) : RoundTrip.Statement (.lb rd rs1 imm) := by
  intro e _ _
  rw [encode, decode_load e (fieldOpcode_formatI _ _ _ _ _), decodeLoad, fieldFunct3_formatI,
    fieldRd_formatI, fieldRs1_formatI, fieldImmI_formatI]
  rfl

theorem RoundTrip.lh (rd rs1 : Reg) (imm : BitVec 12) : RoundTrip.Statement (.lh rd rs1 imm) := by
  intro e _ _
  rw [encode, decode_load e (fieldOpcode_formatI _ _ _ _ _), decodeLoad, fieldFunct3_formatI,
    fieldRd_formatI, fieldRs1_formatI, fieldImmI_formatI]
  rfl

theorem RoundTrip.lw (rd rs1 : Reg) (imm : BitVec 12) : RoundTrip.Statement (.lw rd rs1 imm) := by
  intro e _ _
  rw [encode, decode_load e (fieldOpcode_formatI _ _ _ _ _), decodeLoad, fieldFunct3_formatI,
    fieldRd_formatI, fieldRs1_formatI, fieldImmI_formatI]
  rfl

theorem RoundTrip.ld (rd rs1 : Reg) (imm : BitVec 12) : RoundTrip.Statement (.ld rd rs1 imm) := by
  intro e _ _
  rw [encode, decode_load e (fieldOpcode_formatI _ _ _ _ _), decodeLoad, fieldFunct3_formatI,
    fieldRd_formatI, fieldRs1_formatI, fieldImmI_formatI]
  rfl

theorem RoundTrip.lbu (rd rs1 : Reg) (imm : BitVec 12) : RoundTrip.Statement (.lbu rd rs1 imm) := by
  intro e _ _
  rw [encode, decode_load e (fieldOpcode_formatI _ _ _ _ _), decodeLoad, fieldFunct3_formatI,
    fieldRd_formatI, fieldRs1_formatI, fieldImmI_formatI]
  rfl

theorem RoundTrip.lhu (rd rs1 : Reg) (imm : BitVec 12) : RoundTrip.Statement (.lhu rd rs1 imm) := by
  intro e _ _
  rw [encode, decode_load e (fieldOpcode_formatI _ _ _ _ _), decodeLoad, fieldFunct3_formatI,
    fieldRd_formatI, fieldRs1_formatI, fieldImmI_formatI]
  rfl

theorem RoundTrip.lwu (rd rs1 : Reg) (imm : BitVec 12) : RoundTrip.Statement (.lwu rd rs1 imm) := by
  intro e _ _
  rw [encode, decode_load e (fieldOpcode_formatI _ _ _ _ _), decodeLoad, fieldFunct3_formatI,
    fieldRd_formatI, fieldRs1_formatI, fieldImmI_formatI]
  rfl

theorem RoundTrip.sb (rs1 rs2 : Reg) (imm : BitVec 12) : RoundTrip.Statement (.sb rs1 rs2 imm) := by
  intro e _ _
  rw [encode, decode_store e (fieldOpcode_formatS _ _ _ _ _), decodeStore, fieldFunct3_formatS,
    fieldRs1_formatS, fieldRs2_formatS, fieldImmS_formatS]
  rfl

theorem RoundTrip.sh (rs1 rs2 : Reg) (imm : BitVec 12) : RoundTrip.Statement (.sh rs1 rs2 imm) := by
  intro e _ _
  rw [encode, decode_store e (fieldOpcode_formatS _ _ _ _ _), decodeStore, fieldFunct3_formatS,
    fieldRs1_formatS, fieldRs2_formatS, fieldImmS_formatS]
  rfl

theorem RoundTrip.sw (rs1 rs2 : Reg) (imm : BitVec 12) : RoundTrip.Statement (.sw rs1 rs2 imm) := by
  intro e _ _
  rw [encode, decode_store e (fieldOpcode_formatS _ _ _ _ _), decodeStore, fieldFunct3_formatS,
    fieldRs1_formatS, fieldRs2_formatS, fieldImmS_formatS]
  rfl

theorem RoundTrip.sd (rs1 rs2 : Reg) (imm : BitVec 12) : RoundTrip.Statement (.sd rs1 rs2 imm) := by
  intro e _ _
  rw [encode, decode_store e (fieldOpcode_formatS _ _ _ _ _), decodeStore, fieldFunct3_formatS,
    fieldRs1_formatS, fieldRs2_formatS, fieldImmS_formatS]
  rfl

theorem RoundTrip.addi (rd rs1 : Reg) (imm : BitVec 12) : RoundTrip.Statement (.addi rd rs1 imm) := by
  intro e _ _
  rw [encode, decode_opImm e (fieldOpcode_formatI _ _ _ _ _), decodeOpImm, fieldFunct3_formatI,
    fieldRd_formatI, fieldRs1_formatI, fieldImmI_formatI]
  rfl

theorem RoundTrip.xori (rd rs1 : Reg) (imm : BitVec 12) : RoundTrip.Statement (.xori rd rs1 imm) := by
  intro e _ _
  rw [encode, decode_opImm e (fieldOpcode_formatI _ _ _ _ _), decodeOpImm, fieldFunct3_formatI,
    fieldRd_formatI, fieldRs1_formatI, fieldImmI_formatI]
  rfl

theorem RoundTrip.ori (rd rs1 : Reg) (imm : BitVec 12) : RoundTrip.Statement (.ori rd rs1 imm) := by
  intro e _ _
  rw [encode, decode_opImm e (fieldOpcode_formatI _ _ _ _ _), decodeOpImm, fieldFunct3_formatI,
    fieldRd_formatI, fieldRs1_formatI, fieldImmI_formatI]
  rfl

theorem RoundTrip.andi (rd rs1 : Reg) (imm : BitVec 12) : RoundTrip.Statement (.andi rd rs1 imm) := by
  intro e _ _
  rw [encode, decode_opImm e (fieldOpcode_formatI _ _ _ _ _), decodeOpImm, fieldFunct3_formatI,
    fieldRd_formatI, fieldRs1_formatI, fieldImmI_formatI]
  rfl

theorem RoundTrip.add (rd rs1 rs2 : Reg) : RoundTrip.Statement (.add rd rs1 rs2) := by
  intro e _ _
  rw [encode, decode_op e (fieldOpcode_formatR _ _ _ _ _ _), decodeOp, fieldFunct3_formatR,
    fieldFunct7_formatR, fieldRd_formatR, fieldRs1_formatR, fieldRs2_formatR]
  rfl

theorem RoundTrip.sub (rd rs1 rs2 : Reg) : RoundTrip.Statement (.sub rd rs1 rs2) := by
  intro e _ _
  rw [encode, decode_op e (fieldOpcode_formatR _ _ _ _ _ _), decodeOp, fieldFunct3_formatR,
    fieldFunct7_formatR, fieldRd_formatR, fieldRs1_formatR, fieldRs2_formatR]
  rfl

theorem RoundTrip.xor (rd rs1 rs2 : Reg) : RoundTrip.Statement (.xor rd rs1 rs2) := by
  intro e _ _
  rw [encode, decode_op e (fieldOpcode_formatR _ _ _ _ _ _), decodeOp, fieldFunct3_formatR,
    fieldFunct7_formatR, fieldRd_formatR, fieldRs1_formatR, fieldRs2_formatR]
  rfl

theorem RoundTrip.or (rd rs1 rs2 : Reg) : RoundTrip.Statement (.or rd rs1 rs2) := by
  intro e _ _
  rw [encode, decode_op e (fieldOpcode_formatR _ _ _ _ _ _), decodeOp, fieldFunct3_formatR,
    fieldFunct7_formatR, fieldRd_formatR, fieldRs1_formatR, fieldRs2_formatR]
  rfl

theorem RoundTrip.and (rd rs1 rs2 : Reg) : RoundTrip.Statement (.and rd rs1 rs2) := by
  intro e _ _
  rw [encode, decode_op e (fieldOpcode_formatR _ _ _ _ _ _), decodeOp, fieldFunct3_formatR,
    fieldFunct7_formatR, fieldRd_formatR, fieldRs1_formatR, fieldRs2_formatR]
  rfl

theorem RoundTrip.halt : RoundTrip.Statement (.halt) := by
  intro e _ _
  rfl

theorem RoundTrip.system (rest : BitVec 25) : RoundTrip.Statement (.system rest) := by
  intro e _ _
  rw [encode, decode_system e (fieldOpcode_system _ _), fieldRest_system]

theorem RoundTrip.slti (rd rs1 : Reg) (imm : BitVec 12) : RoundTrip.Statement (.slti rd rs1 imm) := by
  intro e _ he
  rw [encode, he rfl, decode_opImm true (fieldOpcode_formatI _ _ _ _ _), decodeOpImm, decodeOpImmExtra,
    fieldFunct3_formatI, fieldRd_formatI, fieldRs1_formatI, fieldImmI_formatI]
  rfl

theorem RoundTrip.sltiu (rd rs1 : Reg) (imm : BitVec 12) : RoundTrip.Statement (.sltiu rd rs1 imm) := by
  intro e _ he
  rw [encode, he rfl, decode_opImm true (fieldOpcode_formatI _ _ _ _ _), decodeOpImm, decodeOpImmExtra,
    fieldFunct3_formatI, fieldRd_formatI, fieldRs1_formatI, fieldImmI_formatI]
  rfl

theorem RoundTrip.slli (rd rs1 : Reg) (shamt : BitVec 6) : RoundTrip.Statement (.slli rd rs1 shamt) := by
  intro e _ he
  rw [encode, he rfl, decode_opImm true (fieldOpcode_formatI _ _ _ _ _), decodeOpImm, decodeOpImmExtra,
    fieldFunct3_formatI, fieldFunct6_formatI, fieldRd_formatI, fieldRs1_formatI, fieldShamt_formatI]
  rfl

theorem RoundTrip.srli (rd rs1 : Reg) (shamt : BitVec 6) : RoundTrip.Statement (.srli rd rs1 shamt) := by
  intro e _ he
  rw [encode, he rfl, decode_opImm true (fieldOpcode_formatI _ _ _ _ _), decodeOpImm, decodeOpImmExtra,
    fieldFunct3_formatI, fieldFunct6_formatI, fieldRd_formatI, fieldRs1_formatI, fieldShamt_formatI]
  rfl

theorem RoundTrip.srai (rd rs1 : Reg) (shamt : BitVec 6) : RoundTrip.Statement (.srai rd rs1 shamt) := by
  intro e _ he
  rw [encode, he rfl, decode_opImm true (fieldOpcode_formatI _ _ _ _ _), decodeOpImm, decodeOpImmExtra,
    fieldFunct3_formatI, fieldFunct6_formatI, fieldRd_formatI, fieldRs1_formatI, fieldShamt_formatI]
  rfl

end Sys2Proof.Laws
end

