-- ==== Sys2Proof/Laws/Step.lean ====
section
/-! SUPPORT. What a step can do, once: the cases of the first half of a step (40_sequencer.md R112 steps 0
to 4), and the four forms a meaning's answer can have (R124). -/

namespace Sys2Proof.Machine

/-! ## The first half of a step -/

theorem beginStep_terminal {s : State} (h : s.status ≠ .running) : beginStep s = .done s := by
  simp [beginStep, h]

theorem beginStep_budget {s : State} (h : s.status = .running) (hb : s.cfg.maxSteps ≤ s.steps) :
    beginStep s = .done (s.raise .stepBudgetExhausted) := by
  simp [beginStep, h, hb]

theorem beginStep_haltAddr {s : State} (h : s.status = .running) (hb : s.steps < s.cfg.maxSteps)
    (ha : s.cfg.haltAddr = some s.pc) : beginStep s = .done (s.stop .haltAddr) := by
  simp [beginStep, h, ha, Nat.not_le.2 hb]

theorem beginStep_ready {s : State} (h : ReadyToFetch s) : beginStep s = fetchDecode s := by
  simp [beginStep, h.1, h.2.2, Nat.not_le.2 h.2.1]

/-- Everything steps 2 to 4 can come to. -/
theorem fetchDecode_cases (s : State) :
    (∃ k, fetch32 s s.pc = .error k ∧ fetchDecode s = .done (s.raise k)) ∨
    (∃ w i, fetch32 s s.pc = .ok w ∧ decode s.cfg.opimmExtra w = .instr i ∧ fetchDecode s = .run i) ∨
    (∃ w r, fetch32 s s.pc = .ok w ∧ decode s.cfg.opimmExtra w = .illegal r
      ∧ fetchDecode s = .done (s.raise (.illegalInstruction s.pc w))) := by
  unfold fetchDecode
  cases fetch32 s s.pc with
  | error k => exact .inl ⟨k, rfl, rfl⟩
  | ok w =>
    cases hd : decode s.cfg.opimmExtra w with
    | instr i => exact .inr (.inl ⟨w, i, rfl, hd, by simp only [hd]⟩)
    | illegal r => exact .inr (.inr ⟨w, r, rfl, hd, by simp only [hd]⟩)

/-- Everything the first half of a step can come to, in the order of R210. -/
theorem beginStep_cases (s : State) :
    (s.status ≠ .running ∧ beginStep s = .done s) ∨
    (s.status = .running ∧ s.cfg.maxSteps ≤ s.steps
      ∧ beginStep s = .done (s.raise .stepBudgetExhausted)) ∨
    (s.status = .running ∧ s.steps < s.cfg.maxSteps ∧ s.cfg.haltAddr = some s.pc
      ∧ beginStep s = .done (s.stop .haltAddr)) ∨
    (ReadyToFetch s ∧ beginStep s = fetchDecode s) := by
  by_cases h : s.status = .running
  · by_cases hb : s.cfg.maxSteps ≤ s.steps
    · exact .inr (.inl ⟨h, hb, beginStep_budget h hb⟩)
    · have hb := Nat.not_le.1 hb
      by_cases ha : s.cfg.haltAddr = some s.pc
      · exact .inr (.inr (.inl ⟨h, hb, ha, beginStep_haltAddr h hb ha⟩))
      · exact .inr (.inr (.inr ⟨⟨h, hb, ha⟩, beginStep_ready ⟨h, hb, ha⟩⟩))
  · exact .inl ⟨h, beginStep_terminal h⟩

/-- A step from a state that gets to the fetch and decodes an instruction is that instruction's meaning. -/
theorem step_eq_exec {s : State} {w : InstrWord} {i : Instr} (h : ReadyToFetch s)
    (hf : fetch32 s s.pc = .ok w) (hd : decode s.cfg.opimmExtra w = .instr i) : step s = exec i s := by
  simp [step, beginStep_ready h, fetchDecode, hf, hd]

/-- A step that is over in its first half. -/
theorem step_done {s t : State} (h : beginStep s = .done t) : step s = .next t := by
  simp [step, h]

theorem step_fetch_error {s : State} {k : Fault} (h : ReadyToFetch s) (hf : fetch32 s s.pc = .error k) :
    step s = .next (s.raise k) :=
  step_done (by simp [beginStep_ready h, fetchDecode, hf])

theorem step_illegal {s : State} {w : InstrWord} {r : Reject} (h : ReadyToFetch s)
    (hf : fetch32 s s.pc = .ok w) (hd : decode s.cfg.opimmExtra w = .illegal r) :
    step s = .next (s.raise (.illegalInstruction s.pc w)) :=
  step_done (by simp [beginStep_ready h, fetchDecode, hf, hd])

/-- Everything a step that answers a next state can have done. -/
theorem step_cases {s t : State} (h : step s = .next t) :
    (s.status ≠ .running ∧ t = s) ∨
    (s.status = .running ∧ s.cfg.maxSteps ≤ s.steps ∧ t = s.raise .stepBudgetExhausted) ∨
    (s.status = .running ∧ s.steps < s.cfg.maxSteps ∧ s.cfg.haltAddr = some s.pc ∧ t = s.stop .haltAddr) ∨
    (ReadyToFetch s ∧ ∃ k, fetch32 s s.pc = .error k ∧ t = s.raise k) ∨
    (ReadyToFetch s ∧ ∃ w r, fetch32 s s.pc = .ok w ∧ decode s.cfg.opimmExtra w = .illegal r
      ∧ t = s.raise (.illegalInstruction s.pc w)) ∨
    (ReadyToFetch s ∧ ∃ w i, fetch32 s s.pc = .ok w ∧ decode s.cfg.opimmExtra w = .instr i
      ∧ exec i s = .next t) := by
  rw [step] at h
  rcases beginStep_cases s with ⟨a, e⟩ | ⟨a, b, e⟩ | ⟨a, b, c, e⟩ | ⟨a, e⟩ <;> rw [e] at h
  · cases h
    exact .inl ⟨a, rfl⟩
  · cases h
    exact .inr (.inl ⟨a, b, rfl⟩)
  · cases h
    exact .inr (.inr (.inl ⟨a, b, c, rfl⟩))
  · rcases fetchDecode_cases s with ⟨k, f, g⟩ | ⟨w, i, f, d, g⟩ | ⟨w, r, f, d, g⟩ <;> rw [g] at h
    · cases h
      exact .inr (.inr (.inr (.inl ⟨a, k, f, rfl⟩)))
    · exact .inr (.inr (.inr (.inr (.inr ⟨a, w, i, f, d, h⟩))))
    · cases h
      exact .inr (.inr (.inr (.inr (.inl ⟨a, w, r, f, d, rfl⟩))))

/-- The first of several steps. -/
theorem run_succ {s t : State} (n : Nat) (h : step s = .next t) :
    Sys2Proof.core.run (n + 1) s = Sys2Proof.core.run n t := by
  simp only [Host.Core.run, Sys2Proof.core]
  rw [h]

/-! ## The four forms of an answer -/

/-- What ends a run from inside an instruction, and what is then true: HALT, a SYSTEM word, or the access
check of a load or a store. -/
def EndsBecause (i : Instr) (s : State) : Status → Prop
  | .haltZero => i = .halt
  | .fault (.unsupported p w) => p = s.pc ∧ w = encode i ∧ ∃ rest, i = .system rest
  | .fault (.loadMisaligned a n) => a.toNat % n.bytes ≠ 0
  | .fault (.loadOutOfRange a n) => a.toNat % n.bytes = 0 ∧ ¬ InWindow s a n.bytes
  | .fault (.storeMisaligned a n) => a.toNat % n.bytes ≠ 0
  | .fault (.storeOutOfRange a n) => a.toNat % n.bytes = 0 ∧ ¬ InWindow s a n.bytes
  | _ => False

/-- What an answer can be: the run ends with the status written, a register is written, memory is written,
or only the pc moves (R124). -/
inductive Form (i : Instr) (s : State) : Answer → Prop where
  | ends (st : Status) (hst : st ≠ .running) (why : EndsBecause i s st) : Form i s (.next (s.stop st))
  | writes (rd : Reg) (v npc : Word) (hd : i.dest = some rd) : Form i s (.next (s.retireReg rd v npc))
  | stores (a : Word) (w : Width) (v : Word) (hi : i.isStore = true) (hal : a.toNat % w.bytes = 0)
      (hin : InWindow s a w.bytes) :
      Form i s (.next (State.retire { s with mem := s.mem.writeLE a.toNat w.bytes v } s.pcPlus4))
  | moves (npc : Word) : Form i s (.next (s.retire npc))

/-- The answer of a load. -/
theorem form_load (i : Instr) (w : Width) (ext : Word → Word) (rd rs1 : Reg) (imm : BitVec 12) (s : State)
    (hd : i.dest = some rd) : Form i s (.next (loadWith w ext rd rs1 imm s)) := by
  rcases memRead_cases s (loadAddr s rs1 imm) w with ⟨h1, h⟩ | ⟨h1, h2, h⟩ | ⟨_, _, h⟩ <;> rw [loadWith, h]
  · exact .ends (.fault _) (by simp) h1
  · exact .ends (.fault _) (by simp) ⟨h1, h2⟩
  · exact .writes rd _ s.pcPlus4 hd

/-- The answer of a store. -/
theorem form_store (i : Instr) (w : Width) (rs1 rs2 : Reg) (imm : BitVec 12) (s : State)
    (hi : i.isStore = true) : Form i s (.next (storeWith w rs1 rs2 imm s)) := by
  rcases memWrite_cases s (storeAddr s rs1 imm) w (s.readReg rs2) with
    ⟨h1, h⟩ | ⟨h1, h2, h⟩ | ⟨h1, h2, h⟩ <;> rw [storeWith, h]
  · exact .ends (.fault _) (by simp) h1
  · exact .ends (.fault _) (by simp) ⟨h1, h2⟩
  · exact .stores _ w _ hi h1 h2

/-- Every meaning's answer has one of the four forms. -/
theorem exec_form (i : Instr) (s : State) : Form i s (exec i s) := by
  cases i with
  | lui rd _ => exact .writes rd _ _ rfl
  | auipc rd _ => exact .writes rd _ _ rfl
  | jal rd _ => exact .writes rd _ _ rfl
  | jalr rd _ _ => exact .writes rd _ _ rfl
  | beq => exact .moves _
  | bne => exact .moves _
  | blt => exact .moves _
  | bge => exact .moves _
  | bltu => exact .moves _
  | bgeu => exact .moves _
  | lb => exact form_load _ _ _ _ _ _ s rfl
  | lh => exact form_load _ _ _ _ _ _ s rfl
  | lw => exact form_load _ _ _ _ _ _ s rfl
  | ld => exact form_load _ _ _ _ _ _ s rfl
  | lbu => exact form_load _ _ _ _ _ _ s rfl
  | lhu => exact form_load _ _ _ _ _ _ s rfl
  | lwu => exact form_load _ _ _ _ _ _ s rfl
  | sb => exact form_store _ _ _ _ _ s rfl
  | sh => exact form_store _ _ _ _ _ s rfl
  | sw => exact form_store _ _ _ _ _ s rfl
  | sd => exact form_store _ _ _ _ _ s rfl
  | addi rd => exact .writes rd _ _ rfl
  | xori rd => exact .writes rd _ _ rfl
  | ori rd => exact .writes rd _ _ rfl
  | andi rd => exact .writes rd _ _ rfl
  | add rd => exact .writes rd _ _ rfl
  | sub rd => exact .writes rd _ _ rfl
  | xor rd => exact .writes rd _ _ rfl
  | or rd => exact .writes rd _ _ rfl
  | and rd => exact .writes rd _ _ rfl
  | halt => exact .ends .haltZero (by simp) rfl
  | system rest => exact .ends (.fault _) (by simp) ⟨rfl, rfl, rest, rfl⟩
  | slti rd => exact .writes rd _ _ rfl
  | sltiu rd => exact .writes rd _ _ rfl
  | slli rd => exact .writes rd _ _ rfl
  | srli rd => exact .writes rd _ _ rfl
  | srai rd => exact .writes rd _ _ rfl

end Sys2Proof.Machine
end

