-- ==== Sys2Proof/Tests/Slice0.lean ====
section
/-! SUPPORT. The model's own tests. The expected results are the spec's: the encodings of 30_encoding.md and the
vectors of 95_test_vectors.md and 96_test_vectors_derived.md. Then, for every statement with hypotheses, a
concrete case that meets them (`witness_<statement>`). -/

namespace Sys2Proof.Tests

open Sys2Proof.Machine

/-! ## Well-formedness: one ill-formed term for each check -/

theorem test_ill_formed_jal : Instr.wellFormed (.jal 1 3#21) = false := by decide
theorem test_ill_formed_beq : Instr.wellFormed (.beq 5 6 1#13) = false := by decide
theorem test_ill_formed_bne : Instr.wellFormed (.bne 5 6 1#13) = false := by decide
theorem test_ill_formed_blt : Instr.wellFormed (.blt 5 6 1#13) = false := by decide
theorem test_ill_formed_bge : Instr.wellFormed (.bge 5 6 1#13) = false := by decide
theorem test_ill_formed_bltu : Instr.wellFormed (.bltu 5 6 1#13) = false := by decide
theorem test_ill_formed_bgeu : Instr.wellFormed (.bgeu 5 6 1#13) = false := by decide

/-! ## Decoding: a word of every row, written field by field from R82 and R89 to R95 -/

theorem test_decode_upper :
    decode false 0b00010010001101000101_00101_0110111#32 = .instr (.lui 5 0x12345#20) ∧
    decode false 0b11111111111111111111_00101_0010111#32 = .instr (.auipc 5 0xFFFFF#20) := by decide

theorem test_decode_jumps :
    decode false 0b1_1111111110_1_11111111_00001_1101111#32 = .instr (.jal 1 (BitVec.ofInt 21 (-4))) ∧
    decode false 0b000000000100_00101_000_00101_1100111#32 = .instr (.jalr 5 5 4#12) := by decide

theorem test_decode_branches :
    decode false 0b1_111111_00110_00101_000_0000_1_1100011#32 = .instr (.beq 5 6 (BitVec.ofInt 13 (-32))) ∧
    decode false 0b0_000000_00110_00101_001_0001_0_1100011#32 = .instr (.bne 5 6 2#13) ∧
    decode false 0b0_000000_00110_00101_100_0100_0_1100011#32 = .instr (.blt 5 6 8#13) ∧
    decode false 0b0_000000_00110_00101_101_0000_1_1100011#32 = .instr (.bge 5 6 2048#13) ∧
    decode false 0b1_000000_00110_00101_110_0000_0_1100011#32 = .instr (.bltu 5 6 (BitVec.ofInt 13 (-4096))) ∧
    decode false 0b0_111111_00110_00101_111_1111_1_1100011#32 = .instr (.bgeu 5 6 4094#13) := by decide

theorem test_decode_loads :
    decode false 0b111111111111_00110_000_00101_0000011#32 = .instr (.lb 5 6 (BitVec.ofInt 12 (-1))) ∧
    decode false 0b000000000110_00110_001_00101_0000011#32 = .instr (.lh 5 6 6#12) ∧
    decode false 0b000000000100_00110_010_00101_0000011#32 = .instr (.lw 5 6 4#12) ∧
    decode false 0b000000000000_00110_011_00101_0000011#32 = .instr (.ld 5 6 0#12) ∧
    decode false 0b000000000111_00110_100_00101_0000011#32 = .instr (.lbu 5 6 7#12) ∧
    decode false 0b000000000010_00110_101_00101_0000011#32 = .instr (.lhu 5 6 2#12) ∧
    decode false 0b000000000100_00110_110_00101_0000011#32 = .instr (.lwu 5 6 4#12) := by decide

theorem test_decode_stores :
    decode false 0b1111111_00111_00110_000_11111_0100011#32 = .instr (.sb 6 7 (BitVec.ofInt 12 (-1))) ∧
    decode false 0b0000000_00111_00110_001_01110_0100011#32 = .instr (.sh 6 7 14#12) ∧
    decode false 0b0000000_00111_00110_010_01100_0100011#32 = .instr (.sw 6 7 12#12) ∧
    decode false 0b0000000_00111_00110_011_11111_0100011#32 = .instr (.sd 6 7 31#12) := by decide

theorem test_decode_op_imm :
    decode false 0b100000000000_00110_000_00101_0010011#32 = .instr (.addi 5 6 (BitVec.ofInt 12 (-2048))) ∧
    decode false 0b111111111111_00110_100_00101_0010011#32 = .instr (.xori 5 6 (BitVec.ofInt 12 (-1))) ∧
    decode false 0b000011110000_00110_110_00101_0010011#32 = .instr (.ori 5 6 240#12) ∧
    decode false 0b011111111111_00110_111_00101_0010011#32 = .instr (.andi 5 6 2047#12) := by decide

theorem test_decode_op :
    decode false 0b0000000_00111_00110_000_00101_0110011#32 = .instr (.add 5 6 7) ∧
    decode false 0b0100000_00111_00110_000_00101_0110011#32 = .instr (.sub 5 6 7) ∧
    decode false 0b0000000_00111_00110_100_00101_0110011#32 = .instr (.xor 5 6 7) ∧
    decode false 0b0000000_00111_00110_110_00101_0110011#32 = .instr (.or 5 6 7) ∧
    decode false 0b0000000_00111_00110_111_00101_0110011#32 = .instr (.and 5 6 7) := by decide

theorem test_decode_system :
    decode false 0b00000000000000000000000000000000#32 = .instr .halt ∧
    decode false 0b001100000010_00000_000_00000_1110011#32 = .instr (.system 0b0011000000100000000000000#25) := by decide

theorem test_decode_op_imm_extra :
    decode true 0b000000000001_00110_010_00101_0010011#32 = .instr (.slti 5 6 1#12) ∧
    decode true 0b000000000001_00110_011_00101_0010011#32 = .instr (.sltiu 5 6 1#12) ∧
    decode true 0b000000_000100_00110_001_00101_0010011#32 = .instr (.slli 5 6 4#6) ∧
    decode true 0b000000_000100_00110_101_00101_0010011#32 = .instr (.srli 5 6 4#6) ∧
    decode true 0b010000_000100_00110_101_00101_0010011#32 = .instr (.srai 5 6 4#6) := by decide

/-- The encoder gives words the spec prints (96_test_vectors_derived.md 2.1), whose immediate bits sit apart. -/
theorem test_encode_scattered :
    encode (.beq 5 6 (BitVec.ofInt 13 (-4096))) = 0x80628063#32 ∧ encode (.beq 5 6 2048#13) = 0x006280E3#32 ∧
    encode (.jal 1 2048#21) = 0x001000EF#32 ∧ encode (.jal 1 4096#21) = 0x000010EF#32 ∧
    encode (.sd 6 7 (BitVec.ofInt 12 (-32))) = 0xFE733023#32 := by decide

/-- No two rows of the opcode table share a word: they differ in a bit that both fix. -/
theorem test_rows_disjoint :
    opcodeTable.Pairwise (fun r q => (r.pattern ^^^ q.pattern) &&& r.mask &&& q.mask ≠ 0#32) := by decide

/-- The five optional words exist only with OPIMM_EXTRA (R175). -/
theorem test_baseline_op_imm :
    [0x00431293#32, 0x00132293#32, 0x00133293#32, 0x00435293#32, 0x40435293#32].map (decode false)
      = List.replicate 5 (.illegal .opImmBaseline) := by decide

/-- One word of each part of R197, and the byte string that is too short. -/
theorem test_rejects :
    decode false 0x0FF0000F#32 = .illegal .opcode ∧ decode false 0x000290E7#32 = .illegal .jalrFunct3 ∧
    decode false 0x00002463#32 = .illegal .branchFunct3 ∧ decode false 0x00037283#32 = .illegal .loadFunct3 ∧
    decode false 0x00734023#32 = .illegal .storeFunct3 ∧ decode true 0x40131293#32 = .illegal .opImmShift ∧
    decode false 0x027302B3#32 = .illegal .opFunct ∧
    decodeBytes false [0x93#8, 0x02#8, 0xA0#8] = (.illegal .truncated, []) := by decide

theorem test_table_word : decodeTableWord 32 0x40435293 = some (.srai 5 6 4#6) := by decide

/-! ## One step

The expected values are those of 96_test_vectors_derived.md 2.2 to 2.9 and 2.11, for BLT and BLTU of the pair
`-1, 1` in its table of comparisons. -/

/-- A small state: the defaults of 95_test_vectors.md, a pc, some registers, some bytes of memory. -/
def start (pc : Word) (rs : List (Reg × Word)) (m : Memory) : State :=
  rs.foldl (fun t p => t.writeReg p.1 p.2) (State.boot Config.default { entry := pc, memInit := m })

/-- The state after the word has run as the next instruction. -/
def after (w : Nat) (s : State) : State :=
  match step (s.withFetchWord 32 w) with
  | .next t => t
  | .fault _ => s
  | .refused _ => s

/-- The next state an answer holds, for deciding what the answer is. -/
def nextState : Answer → Option State
  | .next t => some t
  | .fault _ => none
  | .refused _ => none

theorem answer_of_nextState {o : Answer} {t : State} (h : nextState o = some t) : o = .next t := by
  cases o <;> simp_all [nextState]

def bytesAt (s : State) (a n : Nat) : List Nat := (List.range n).map fun k => (s.mem.read (a + k)).toNat

/-- `80 FF 7F 00 EF CD AB 89` at 0x80000100 (96_test_vectors_derived.md 2.5). -/
def sampleBytes : Memory :=
  [(0x80000100, 0x80#8), (0x80000101, 0xFF#8), (0x80000102, 0x7F#8), (0x80000104, 0xEF#8),
    (0x80000105, 0xCD#8), (0x80000106, 0xAB#8), (0x80000107, 0x89#8)]

theorem test_lui_sign_extends :
    let t := after 0x800002B7 (start 0x80000000#64 [] [])
    t.regs[(5 : Reg)] = 0xFFFFFFFF80000000#64 := by decide

theorem test_auipc_wraps :
    let t := after 0x80000297 (start 0x80000000#64 [(5, 0xDEAD#64)] [])
    t.regs[(5 : Reg)] = 0#64 := by decide

theorem test_jal_backward :
    let t := after 0xFFDFF0EF (start 0x80000010#64 [] [])
    t.regs[(1 : Reg)] = 0x80000014#64 ∧
    t.pc = 0x8000000C#64 := by decide

theorem test_jalr_rd_is_rs1 :
    let t := after 0x004282E7 (start 0x80000000#64 [(5, 0x80000100#64)] [])
    t.regs[(5 : Reg)] = 0x80000004#64 ∧
    t.pc = 0x80000104#64 := by decide

theorem test_jalr_clears_bit0 :
    let t := after 0xFFF280E7 (start 0x80000000#64 [] [])
    t.pc = 0xFFFFFFFFFFFFFFFE#64 := by decide

theorem test_beq_taken :
    let t := after 0xFE0000E3 (start 0x80000020#64 [] [])
    t.pc = 0x80000000#64 := by decide

theorem test_bne_not_taken :
    let t := after 0x00001163 (start 0x80000000#64 [] [])
    t.pc = 0x80000004#64 := by decide

theorem test_blt_signed :
    let t := after 0x00534463 (start 0x80000000#64 [(6, 0xFFFFFFFFFFFFFFFF#64), (5, 1#64)] [])
    t.pc = 0x80000008#64 := by decide

theorem test_bge_equal :
    let t := after 0x0052D463 (start 0x80000000#64 [(5, 3#64)] [])
    t.pc = 0x80000008#64 := by decide

theorem test_bltu_unsigned :
    let t := after 0x00536463 (start 0x80000000#64 [(6, 0xFFFFFFFFFFFFFFFF#64), (5, 1#64)] [])
    t.pc = 0x80000004#64 := by decide

theorem test_bgeu_zero :
    let t := after 0x0002F463 (start 0x80000000#64 [] [])
    t.pc = 0x80000008#64 := by decide

theorem test_lb :
    let t := after 0x00730283 (start 0x80000000#64 [(6, 0x80000100#64)] sampleBytes)
    t.regs[(5 : Reg)] = 0xFFFFFFFFFFFFFF89#64 := by decide

theorem test_lh :
    let t := after 0x00631283 (start 0x80000000#64 [(6, 0x80000100#64)] sampleBytes)
    t.regs[(5 : Reg)] = 0xFFFFFFFFFFFF89AB#64 := by decide

theorem test_lw :
    let t := after 0x00432283 (start 0x80000000#64 [(6, 0x80000100#64)] sampleBytes)
    t.regs[(5 : Reg)] = 0xFFFFFFFF89ABCDEF#64 := by decide

theorem test_ld_own_base :
    let t := after 0x00033303 (start 0x80000000#64 [(6, 0x80000100#64)] sampleBytes)
    t.regs[(6 : Reg)] = 0x89ABCDEF007FFF80#64 := by decide

theorem test_lbu :
    let t := after 0x00734283 (start 0x80000000#64 [(6, 0x80000100#64)] sampleBytes)
    t.regs[(5 : Reg)] = 0x89#64 := by decide

theorem test_lhu :
    let t := after 0x00635283 (start 0x80000000#64 [(6, 0x80000100#64)] sampleBytes)
    t.regs[(5 : Reg)] = 0x89AB#64 := by decide

theorem test_lwu :
    let t := after 0x00436283 (start 0x80000000#64 [(6, 0x80000100#64)] sampleBytes)
    t.regs[(5 : Reg)] = 0x89ABCDEF#64 := by decide

theorem test_lw_misaligned_past_end :
    let t := after 0x00232283 (start 0x80000000#64 [(6, 0x80010000#64)] [])
    t.status = .fault (.loadMisaligned 0x80010002#64 .word) ∧
    t.pc = 0x80000000#64 ∧
    t.steps = 0 := by decide

theorem test_lw_wraps_below_zero :
    let t := after 0xFFC02283 (start 0x80000000#64 [] [])
    t.status = .fault (.loadOutOfRange 0xFFFFFFFFFFFFFFFC#64 .word) := by decide

theorem test_lw_x0_discards :
    let t := after 0x00432003 (start 0x80000000#64 [(6, 0x80000100#64)] sampleBytes)
    t.regs[(0 : Reg)] = 0#64 ∧
    t.steps = 1 := by decide

theorem test_sb :
    let t := after 0x007301A3 (start 0x80000000#64 [(6, 0x80000100#64), (7, 0x1122334455667788#64)] [])
    bytesAt t 0x80000102 3 = [0, 0x88, 0] := by decide

theorem test_sh :
    let t := after 0x00731123 (start 0x80000000#64 [(6, 0x80000100#64), (7, 0x1122334455667788#64)] [])
    bytesAt t 0x80000101 4 = [0, 0x88, 0x77, 0] := by decide

theorem test_sw :
    let t := after 0x00732223 (start 0x80000000#64 [(6, 0x80000100#64), (7, 0x1122334455667788#64)] [])
    bytesAt t 0x80000103 6 = [0, 0x88, 0x77, 0x66, 0x55, 0] := by decide

theorem test_sd_last_doubleword :
    let t := after 0xFE733C23 (start 0x80000000#64 [(6, 0x80010000#64), (7, 0x1122334455667788#64)] [])
    bytesAt t 0x8000FFF8 8 = [0x88, 0x77, 0x66, 0x55, 0x44, 0x33, 0x22, 0x11] := by decide

theorem test_sd_misaligned :
    let t := after 0xFE733E23 (start 0x80000000#64 [(6, 0x80010000#64), (7, 0x1234#64)] [])
    t.status = .fault (.storeMisaligned 0x8000FFFC#64 .double) ∧
    t.steps = 0 := by decide

theorem test_sb_below_base :
    let t := after 0xFE730FA3 (start 0x80000000#64 [(6, 0x80000000#64), (7, 0x1234#64)] [])
    t.status = .fault (.storeOutOfRange 0x7FFFFFFF#64 .byte) := by decide

theorem test_addi_wraps :
    let t := after 0x00130293 (start 0x80000000#64 [(6, 0xFFFFFFFFFFFFFFFF#64)] [])
    t.regs[(5 : Reg)] = 0#64 := by decide

theorem test_addi_x0_discards :
    let t := after 0x00530013 (start 0x80000000#64 [(6, 0x0123456789ABCDEF#64)] [])
    t.regs[(0 : Reg)] = 0#64 ∧
    t.pc = 0x80000004#64 := by decide

theorem test_xori_sign_extends :
    let t := after 0x80034293 (start 0x80000000#64 [(6, 0x0123456789ABCDEF#64)] [])
    t.regs[(5 : Reg)] = 0xFEDCBA98765435EF#64 := by decide

theorem test_ori :
    let t := after 0x80036293 (start 0x80000000#64 [(6, 0x0123456789ABCDEF#64)] [])
    t.regs[(5 : Reg)] = 0xFFFFFFFFFFFFFDEF#64 := by decide

theorem test_andi :
    let t := after 0x80037293 (start 0x80000000#64 [(6, 0x0123456789ABCDEF#64)] [])
    t.regs[(5 : Reg)] = 0x0123456789ABC800#64 := by decide

theorem test_add_wraps :
    let t := after 0x007302B3 (start 0x80000000#64 [(6, 0xFFFFFFFFFFFFFFFF#64), (7, 2#64)] [])
    t.regs[(5 : Reg)] = 1#64 := by decide

theorem test_sub_order :
    let t := after 0x407302B3 (start 0x80000000#64 [(6, 0x0123456789ABCDEF#64), (7, 0xFEDCBA9876543210#64)] [])
    t.regs[(5 : Reg)] = 0x02468ACF13579BDF#64 := by decide

theorem test_xor_self :
    let t := after 0x006342B3 (start 0x80000000#64 [(6, 0x0123456789ABCDEF#64), (5, 1#64)] [])
    t.regs[(5 : Reg)] = 0#64 := by decide

theorem test_or_x0 :
    let t := after 0x000362B3 (start 0x80000000#64 [(6, 0x0123456789ABCDEF#64)] [])
    t.regs[(5 : Reg)] = 0x0123456789ABCDEF#64 := by decide

theorem test_and_x0 :
    let t := after 0x000372B3 (start 0x80000000#64 [(6, 0x0123456789ABCDEF#64), (5, 1#64)] [])
    t.regs[(5 : Reg)] = 0#64 := by decide

theorem test_zero_word_halts :
    let t := after 0 (start 0x80000000#64 [] [])
    t.status = .haltZero ∧
    t.pc = 0x80000000#64 ∧
    t.steps = 0 := by decide

theorem test_mret_unsupported :
    let t := after 0x30200073 (start 0x80000000#64 [] [])
    t.status = .fault (.unsupported 0x80000000#64 0x30200073#32) := by decide

theorem test_fence_illegal :
    let t := after 0x0FF0000F (start 0x80000000#64 [] [])
    t.status = .fault (.illegalInstruction 0x80000000#64 0x0FF0000F#32) := by decide

theorem test_mul_illegal :
    let t := after 0x027302B3 (start 0x80000000#64 [] [])
    t.status = .fault (.illegalInstruction 0x80000000#64 0x027302B3#32) := by decide

theorem test_slti_signed :
    let t := after 0x00032293 (start 0x80000000#64 [(6, 0x8000000000000000#64)] [])
    t.regs[(5 : Reg)] = 1#64 := by decide

theorem test_sltiu_unsigned :
    let t := after 0xFFF33293 (start 0x80000000#64 [(6, 5#64)] [])
    t.regs[(5 : Reg)] = 1#64 := by decide

theorem test_slli :
    let t := after 0x03F31293 (start 0x80000000#64 [(6, 0x0123456789ABCDEF#64)] [])
    t.regs[(5 : Reg)] = 0x8000000000000000#64 := by decide

theorem test_srli :
    let t := after 0x00435293 (start 0x80000000#64 [(6, 0xFFFFFFFFFFFFFFF0#64)] [])
    t.regs[(5 : Reg)] = 0x0FFFFFFFFFFFFFFF#64 := by decide

theorem test_srai :
    let t := after 0x40435293 (start 0x80000000#64 [(6, 0xFFFFFFFFFFFFFFF0#64)] [])
    t.regs[(5 : Reg)] = 0xFFFFFFFFFFFFFFFF#64 := by decide

/-! ## Whole-machine tests -/

/-- From reset with nothing loaded the first step is the clean halt (log 5). -/
theorem test_reset_halts : (match step State.reset with | .next t => t.status | _ => .running) = .haltZero := by
  decide

/-- Writing the byte that an unlisted address reads as removes the entry. -/
theorem test_write_zero_removes : Memory.write [(5, 1#8)] 5 0#8 = [] := by decide

/-- The budget comes before the halt address, and that before the fetch (96_test_vectors_derived.md 2.10). -/
theorem test_budget_first :
    (match step { State.reset with cfg := { maxSteps := 0, haltAddr := some 0x80000000#64 } } with
      | .next t => t.status | _ => .running) = .fault .stepBudgetExhausted := by decide

theorem test_halt_addr_misaligned :
    (match step { State.reset with pc := 0x80000002#64, cfg := { haltAddr := some 0x80000002#64 } } with
      | .next t => t.status | _ => .running) = .haltAddr := by decide

/-- Part 1, E1 of 95_test_vectors.md, with a later segment over the end of the first one. -/
def sampleSegments : List Segment :=
  [{ vaddr := 0x80000000#64, bytes := [0x93, 0x02, 0xA0, 0, 7, 7, 7, 7], memSize := 16 },
    { vaddr := 0x80000004#64, bytes := [1, 2], memSize := 3 }]

theorem test_load_image :
    ((loadImage Config.default 0 sampleSegments 0x80000000#64).map fun s => (bytesAt s 0x80000000 9, s.pc))
      = some ([0x93, 0x02, 0xA0, 0, 1, 2, 0, 7, 0], 0x80000000#64) := by decide

/-! ## Witnesses -/

/-- WordsHaveTheirFields, DecoderAgreesWithTable: every pattern has its own bits
under its mask. -/
theorem witness_WordsHaveTheirFields : ∀ r ∈ opcodeTable, r.Matches r.pattern := by decide

/-- EqualityBranches, SignedBranches, UnsignedBranches: both outcomes of each condition, at the sign boundary. -/
theorem witness_Branches :
    let s := start 0x80000020#64 [(5, 0x8000000000000000#64), (6, 0x7FFFFFFFFFFFFFFF#64)] []
    let a := s.regs[(5 : Reg)]
    let b := s.regs[(6 : Reg)]
    (a = a ∧ ¬ a = b) ∧ (a ≠ b ∧ ¬ a ≠ a) ∧ (a.toInt < b.toInt ∧ ¬ b.toInt < a.toInt) ∧
    (b.toInt ≥ a.toInt ∧ ¬ a.toInt ≥ b.toInt) ∧ (b.toNat < a.toNat ∧ ¬ a.toNat < b.toNat) ∧
    (a.toNat ≥ b.toNat ∧ ¬ b.toNat ≥ a.toNat) := by decide

/-- SignedLoads, UnsignedLoads, StoresWriteLowBytes: the last place of each width in the window, with a
canonical memory. -/
theorem witness_access_in_window :
    let s := start 0x80000000#64 [(6, 0x80010000#64)] sampleBytes
    s.mem.wf ∧ ∀ n ∈ [1, 2, 4, 8],
      let ea : Word := s.regs[(6 : Reg)] + (BitVec.ofInt 12 (-n)).signExtend 64
      ea.toNat % n.toNat = 0 ∧ InWindow s ea n.toNat := by unfold InWindow; decide

/-- LoadsFaultInOrder, StoresFaultInOrder: misaligned at the first byte past an aligned one, for each width but one byte. -/
theorem witness_access_misaligned :
    let s := start 0x80000000#64 [(6, 0x80000100#64)] []
    ∀ n ∈ [2, 4, 8], (s.regs[(6 : Reg)] + (1#12).signExtend 64).toNat % n ≠ 0 := by decide

/-- The same: the first place past the window, the last below it, and an address that wraps. -/
theorem witness_access_out_of_range :
    let s := start 0x80000000#64 [(6, 0x80010000#64), (7, 0x80000000#64)] []
    ∀ n ∈ [1, 2, 4, 8],
      (let ea : Word := s.regs[(6 : Reg)] + (0#12).signExtend 64
       ea.toNat % n.toNat = 0 ∧ ¬ InWindow s ea n.toNat) ∧
      (let ea : Word := s.regs[(7 : Reg)] + (BitVec.ofInt 12 (-n)).signExtend 64
       ea.toNat % n.toNat = 0 ∧ ¬ InWindow s ea n.toNat) ∧
      (let ea : Word := s.regs[(0 : Reg)] + (BitVec.ofInt 12 (-n)).signExtend 64
       ea.toNat % n.toNat = 0 ∧ ¬ InWindow s ea n.toNat) := by unfold InWindow; decide

/-- ZeroWordHaltsCleanly: the last word of the window. -/
theorem witness_ZeroWordHaltsCleanly :
    let s := start 0x8000FFFC#64 [] []
    ReadyToFetch s ∧ s.pc.toNat % 4 = 0 ∧ InWindow s s.pc 4 ∧
    ∀ k, k < 4 → s.mem.read (s.pc.toNat + k) = 0#8 := by
  unfold ReadyToFetch InWindow; decide

/-- SystemWordsAreUnsupported, StepRunsDecodedInstruction, StepTestsInOrder: a SYSTEM word at the pc, and it
decodes. -/
theorem witness_SystemWordsAreUnsupported :
    let s := (start 0x8000FFFC#64 [] []).withFetchWord 32 0x30200073
    ReadyToFetch s ∧ fetch32 s s.pc = .ok 0x30200073#32 ∧ bitsOf 0x30200073#32 6 0 = 0x73 := by
  unfold ReadyToFetch; decide

theorem witness_StepRunsDecodedInstruction :
    let s := (start 0x8000FFFC#64 [] []).withFetchWord 32 0x7FF30293
    ReadyToFetch s ∧ s.pc.toNat % 4 = 0 ∧ InWindow s s.pc 4 ∧
    decodeBytes s.cfg.opimmExtra
      [s.mem.read s.pc.toNat, s.mem.read (s.pc.toNat + 1), s.mem.read (s.pc.toNat + 2),
        s.mem.read (s.pc.toNat + 3)] = (.instr (.addi 5 6 2047#12), []) := by
  unfold ReadyToFetch InWindow; decide

/-- IllegalWordsAreExactlyListed: a word of each part (a) to (g), and one of them at the pc (OnlyNamedRegistersMatter too). -/
theorem witness_IllegalWordsAreExactlyListed :
    (∀ w ∈ [0x0FF0000F#32, 0x0002F0E7#32, 0x00003463#32, 0x00037283#32, 0x00737023#32, 0x00435293#32,
      0x427302B3#32], IllegalWord false w) ∧
    (∀ w ∈ [0x04131293#32, 0x80135293#32, 0x40131293#32], IllegalWord true w) ∧
    (let s := (start 0x80000000#64 [] []).withFetchWord 32 0x0FF0000F
     ReadyToFetch s ∧ fetch32 s s.pc = .ok 0x0FF0000F#32 ∧ IllegalWord s.cfg.opimmExtra 0x0FF0000F#32) := by
  refine ⟨?_, ?_, ?_, by decide, ?_⟩
  · intro w hw
    fin_cases hw <;> simp only [IllegalWord] <;> decide
  · intro w hw
    fin_cases hw <;> simp only [IllegalWord] <;> decide
  · unfold ReadyToFetch; decide
  · simp only [IllegalWord]; decide

/-- FetchChecksPc, StepTestsInOrder: misaligned at the end of the window, aligned on both sides of it, and the
last word in it. -/
theorem witness_FetchChecksPc :
    (let s := start 0x8000FFFE#64 [] []
     ReadyToFetch s ∧ s.pc.toNat % 4 ≠ 0) ∧
    (let s := start 0x80010000#64 [] []
     ReadyToFetch s ∧ s.pc.toNat % 4 = 0 ∧ ¬ InWindow s s.pc 4) ∧
    (let s := start 0x7FFFFFFC#64 [] []
     ReadyToFetch s ∧ s.pc.toNat % 4 = 0 ∧ ¬ InWindow s s.pc 4) ∧
    (let s := start 0x8000FFFC#64 [] []
     ReadyToFetch s ∧ s.pc.toNat % 4 = 0 ∧ InWindow s s.pc 4) := by
  unfold ReadyToFetch InWindow; decide

/-- StepTestsInOrder: the budget just used up, one step left at the halt address, and neither; then each kind
of word. -/
theorem witness_StepTestsInOrder :
    (let s : State := { State.reset with steps := 3, cfg := { maxSteps := 3 } }
     s.status = .running ∧ s.cfg.maxSteps ≤ s.steps) ∧
    (let s : State := { State.reset with steps := 2, cfg := { maxSteps := 3, haltAddr := some 0x80000000#64 } }
     s.status = .running ∧ s.steps < s.cfg.maxSteps ∧ s.cfg.haltAddr = some s.pc) ∧
    (let s : State := { State.reset with cfg := { maxSteps := 1, haltAddr := some 0x80000004#64 } }
     s.status = .running ∧ s.steps < s.cfg.maxSteps ∧ s.cfg.haltAddr ≠ some s.pc ∧ fetch32 s s.pc = .ok 0#32) ∧
    (let s := State.reset.withFetchWord 32 0x0FF0000F
     s.status = .running ∧ s.steps < s.cfg.maxSteps ∧ s.cfg.haltAddr ≠ some s.pc ∧
       fetch32 s s.pc = .ok 0x0FF0000F#32 ∧ 0x0FF0000F#32 ≠ 0#32 ∧ IllegalWord s.cfg.opimmExtra 0x0FF0000F#32) ∧
    (let s := State.reset.withFetchWord 32 0x30200073
     s.status = .running ∧ s.steps < s.cfg.maxSteps ∧ s.cfg.haltAddr ≠ some s.pc ∧
       fetch32 s s.pc = .ok 0x30200073#32 ∧ 0x30200073#32 ≠ 0#32 ∧
       ¬ IllegalWord s.cfg.opimmExtra 0x30200073#32) := by
  refine ⟨by decide, by decide, by decide,
    ⟨by decide, by decide, by decide, by decide, by decide, ?_⟩,
    ⟨by decide, by decide, by decide, by decide, by decide, ?_⟩⟩
  · simp only [IllegalWord]; decide
  · simp only [IllegalWord]; decide

/-- TerminalStatesAbsorb. -/
theorem witness_TerminalStatesAbsorb :
    (State.reset.stop .haltZero).status ≠ .running ∧
    (State.reset.raise .stepBudgetExhausted).status ≠ .running := by decide

/-- StepCompletesOrOnlyEnds, OnlyNamedRegistersMatter, ZeroRegisterForced, WrittenPcIsEven: steps that complete,
one with register 0 as its destination. -/
theorem witness_StepCompletesOrOnlyEnds :
    let s := (start 0x80000000#64 [(5, 0x80000101#64)] []).withFetchWord 32 0x000280E7
    s.status = .running ∧ step s = .next (after 0x000280E7 s) ∧ (after 0x000280E7 s).status = .running :=
  ⟨by decide, answer_of_nextState (by decide), by decide⟩

theorem witness_ZeroRegisterForced :
    let s := start 0x80000000#64 [(6, 7#64)] []
    let t := State.retireReg s 0 12#64 0x80000004#64
    exec (.addi 0 6 5#12) s = .next t ∧ t.steps = s.steps + 1 ∧ Instr.dest (.addi 0 6 5#12) = some 0 :=
  ⟨answer_of_nextState (by decide), by decide, by decide⟩

/-- The clauses of OnlyNamedRegistersMatter: a register that is not the destination, and a second register
file that agrees on the source alone. -/
theorem witness_OnlyNamedRegistersMatter :
    let i : Instr := .addi 5 6 5#12
    let s := start 0x80000000#64 [(6, 7#64)] []
    let regs' := (start 0x80000000#64 [(6, 7#64), (31, 9#64), (5, 1#64)] []).regs
    exec i s = .next (s.retireReg 5 12#64 0x80000004#64) ∧ ((7 : Reg) ≠ 0 ∧ i.dest ≠ some 7) ∧
    (∀ r ∈ i.sources, regs'[r] = s.regs[r]) ∧
    exec i { s with regs := regs' } = .next (State.retireReg { s with regs := regs' } 5 12#64 0x80000004#64) :=
  ⟨answer_of_nextState (by decide), by decide, by decide, answer_of_nextState (by decide)⟩

/-- TargetCheckedAtNextFetch: jumps whose targets are misaligned and outside the window (2.3). -/
theorem witness_TargetCheckedAtNextFetch :
    (Instr.isControl (.jal 1 2#21) = true ∧ Instr.dest (.jal 1 2#21) = some 1 ∧ (1 : Reg) ≠ 0) ∧
    (let t := after 0x002000EF (start 0x80000000#64 [] [])
     ReadyToFetch t ∧ t.pc.toNat % 4 ≠ 0) ∧
    (let t := after 0x800000EF (start 0x80000000#64 [] [])
     ReadyToFetch t ∧ t.pc.toNat % 4 = 0 ∧ ¬ InWindow t t.pc 4) := by
  unfold ReadyToFetch InWindow; decide

/-- OnlyStoresChangeMemory: a step that changes memory. -/
theorem witness_OnlyStoresChangeMemory :
    let s := (start 0x80000000#64 [(6, 0x80000100#64), (7, 0x88#64)] []).withFetchWord 32 0x00730023
    step s = .next (after 0x00730023 s) ∧ (after 0x00730023 s).mem ≠ s.mem :=
  ⟨answer_of_nextState (by decide), by decide⟩

/-- StoreThenLoadRoundTrip: a store of each width completes at the last place in the window. -/
theorem witness_StoreThenLoadRoundTrip :
    let s := start 0x80000000#64 [(6, 0x80010000#64), (7, 0x1122334455667788#64)] []
    s.mem.wf ∧ s.regs[(0 : Reg)] = 0#64 ∧
    ∀ i ∈ [Instr.sb 6 7 (BitVec.ofInt 12 (-1)), .sh 6 7 (BitVec.ofInt 12 (-2)), .sw 6 7 (BitVec.ofInt 12 (-4)),
      .sd 6 7 (BitVec.ofInt 12 (-8))],
      (match exec i s with | .next t => t.steps | _ => 0) = s.steps + 1 := by decide

/-- WidthsSeeTheSameBytes: a doubleword written at the end of the window. -/
theorem witness_WidthsSeeTheSameBytes :
    let s := start 0x80000000#64 [] []
    s.mem.wf ∧ (memWrite s 0x8000FFF8#64 .double 0x1122334455667788#64).isOk = true := by decide

/-- StoredWordIsFetched: a word stored at the next pc, ready to be fetched there. -/
theorem witness_StoredWordIsFetched :
    let s := start 0x80000000#64 [(6, 0x80000004#64), (7, 0x00100513#64)] []
    let t := after 0x00732023 s
    s.mem.wf ∧ (match exec (.sw 6 7 0#12) s with | .next t => t.steps | _ => 0) = s.steps + 1 ∧
    ReadyToFetch t ∧ t.pc = s.regs[(6 : Reg)] + (0#12).signExtend 64 ∧
    decode t.cfg.opimmExtra (s.regs[(7 : Reg)].setWidth 32) = .instr (.addi 10 0 1#12) := by
  unfold ReadyToFetch; decide

/-- LoadedImageIsPlaced: a load that succeeds, an address under two segments, one under none, and two loads
that fail. -/
theorem witness_LoadedImageIsPlaced :
    (loadImage Config.default 0 sampleSegments 0x80000000#64).isSome = true ∧
    (∃ a, ∀ g ∈ sampleSegments, g.Covers a) ∧ (∀ g ∈ sampleSegments, ¬ g.Covers 0x80000010) ∧
    (∃ g ∈ sampleSegments, g.Covers 0x80000008 ∧ ¬ Segment.Covers (sampleSegments[1]) 0x80000008) ∧
    ¬ entryInWindow Config.default 0x80010000#64 ∧
    (let g : Segment := { vaddr := 0x8000FFFF#64, bytes := [], memSize := 2 }
     g.memSize ≠ 0 ∧ ¬ g.Fits Config.default) := by
  refine ⟨by decide, ⟨0x80000005, ?_⟩, ?_, ?_, by decide, by decide⟩ <;> unfold Segment.Covers <;> decide

/-- ResetHasInvariant, StepKeepsInvariant: boot parameters with bytes at both ends of the window, whose state
has the invariant, and a step from it. -/
theorem witness_StepKeepsInvariant :
    let b : Boot := { memInit := [(0x80000000, 0x13#8), (0x8000FFFF, 1#8)] }
    let s := State.boot Config.default b
    BootValid Config.default b ∧ s.Inv ∧ step s = .next (s.retireReg 0 0#64 0x80000004#64) := by
  refine ⟨?_, ⟨by decide, by decide, ?_, by decide, trivial⟩, answer_of_nextState (by decide)⟩
  · unfold BootValid MemInWindow; decide
  · unfold MemInWindow; decide

/-- DecodeInvertsEncode, EncodeInvertsDecode: the extreme offsets are well formed and encode to words the spec
prints, in the baseline and with OPIMM_EXTRA. -/
theorem witness_DecodeInvertsEncode :
    Instr.wellFormed (.jal 1 (BitVec.ofInt 21 (-1048576))) = true ∧
    decode false 0x800000EF#32 = .instr (.jal 1 (BitVec.ofInt 21 (-1048576))) ∧
    Instr.wellFormed (.srai 5 6 63#6) = true ∧ (Instr.row (.srai 5 6 63#6)).extraOnly = true ∧
    decode true 0x43F35293#32 = .instr (.srai 5 6 63#6) := by decide

end Sys2Proof.Tests
end

/-! # Register 0 over one instruction (10_state.md R22, 40_sequencer.md R120) -/

namespace Sys2Proof.Machine

/-- Settles O26, along the four forms of an answer: one that ends the run counts no step; the other three end
by retiring, which forces register 0 after any write to it. -/
theorem zeroRegisterForced : Obligations.ZeroRegisterForced := by
  unfold Obligations.ZeroRegisterForced
  intro i s t hexec hcounted
  have hform : Form i s (.next t) := hexec ▸ exec_form i s
  cases hform with
  | ends => exact absurd hcounted (Nat.lt_succ_self _).ne
  | writes rd v npc hd =>
    refine ⟨retireReg_regs s rd v npc 0, fun h0 r hr => ?_⟩
    obtain rfl : rd = 0 := Option.some.inj (hd.symm.trans h0)
    rw [retireReg_regs, if_neg hr, if_neg hr]
  | stores =>
    exact ⟨retire_regs _ _ 0, fun _ r hr => (retire_regs _ _ r).trans (if_neg hr)⟩
  | moves npc =>
    exact ⟨retire_regs s npc 0, fun _ r hr => (retire_regs s npc r).trans (if_neg hr)⟩

end Sys2Proof.Machine

/-! # The immediates of a word as signed numbers of its bit fields (30_encoding.md R83, R84, R85, R87) -/

namespace Sys2Proof.Machine

/-- The field `w[hi:lo]` has `hi + 1 - lo` bits (00_scope.md R9). -/
theorem bitsOf_lt (w : InstrWord) (hi lo : Nat) : bitsOf w hi lo < 2 ^ (hi + 1 - lo) :=
  Nat.mod_lt _ (Nat.two_pow_pos _)

/-- The sign extension of the `n` bits that hold the number `v`. -/
theorem isSignedField_signExtend_ofNat {n v : Nat} (hn : 0 < n) (hn' : n ≤ 64) (hv : v < 2 ^ n) :
    IsSignedField n v ((BitVec.ofNat n v).signExtend 64) :=
  isSignedField_signExtend hn hn' ((BitVec.toNat_ofNat v n).trans (Nat.mod_eq_of_lt hv))

/-- Two's complement takes `2 ^ bits` away, which keeps parity; and the largest number of the range is odd, so
an even one lies one further below its end (R85, R87). -/
theorem IsSignedField.even {bits v : Nat} {x : Word} (h : IsSignedField bits v x) (hbits : 1 < bits)
    (hv : v % 2 = 0) : x.toInt % 2 = 0 ∧ x.toInt ≤ 2 ^ (bits - 1) - 2 := by
  obtain ⟨m, rfl⟩ := Nat.exists_eq_add_of_lt hbits
  obtain ⟨hval, -, hlt⟩ := h
  have hhalf : (2 : Int) ^ (1 + m + 1 - 1) = 2 * 2 ^ m := by
    rw [Nat.add_sub_cancel, Nat.add_comm, pow_succ']
  have hfull : (2 : Int) ^ (1 + m + 1) = 2 * (2 * 2 ^ m) := by rw [pow_succ', ← hhalf, Nat.add_sub_cancel]
  have heven : x.toInt % 2 = 0 := by
    rw [hval, hfull]
    split <;> omega
  rw [hhalf] at hlt ⊢
  exact ⟨heven, by omega⟩

section
variable (w : InstrWord)

theorem isSignedField_immI : IsSignedField 12 (bitsOf w 31 20) (immI (fieldImmI w)) := by
  rw [← immIBits_eq]
  exact isSignedField_signExtend_ofNat (by decide) (by decide) (bitsOf_lt w 31 20)

theorem isSignedField_immS :
    IsSignedField 12 (bitsOf w 31 25 * 2 ^ 5 + bitsOf w 11 7) (immS (fieldImmS w)) := by
  rw [← immSBits_eq]
  have hhigh := bitsOf_lt w 31 25
  have hlow := bitsOf_lt w 11 7
  exact isSignedField_signExtend_ofNat (by decide) (by decide) (by omega)

theorem isSignedField_immB :
    IsSignedField 13
      (bitsOf w 31 31 * 2 ^ 12 + bitsOf w 7 7 * 2 ^ 11 + bitsOf w 30 25 * 2 ^ 5 + bitsOf w 11 8 * 2)
      (immB (fieldImmB w)) := by
  rw [← immBBits_eq]
  have hbit12 := bitsOf_lt w 31 31
  have hbit11 := bitsOf_lt w 7 7
  have hhigh := bitsOf_lt w 30 25
  have hlow := bitsOf_lt w 11 8
  exact isSignedField_signExtend_ofNat (by decide) (by decide) (by omega)

theorem isSignedField_immJ :
    IsSignedField 21
      (bitsOf w 31 31 * 2 ^ 20 + bitsOf w 19 12 * 2 ^ 12 + bitsOf w 20 20 * 2 ^ 11 + bitsOf w 30 21 * 2)
      (immJ (fieldImmJ w)) := by
  rw [← immJBits_eq]
  have hbit20 := bitsOf_lt w 31 31
  have hhigh := bitsOf_lt w 19 12
  have hbit11 := bitsOf_lt w 20 20
  have hlow := bitsOf_lt w 30 21
  exact isSignedField_signExtend_ofNat (by decide) (by decide) (by omega)

end

/-- Settles O39: each immediate is the sign extension of the number its fields make up; for B and J that number
is even, since every field's weight in it is. -/
theorem immediatesOfWords : Obligations.ImmediatesOfWords := by
  unfold Obligations.ImmediatesOfWords
  intro w
  have hB := isSignedField_immB w
  have hJ := isSignedField_immJ w
  exact ⟨isSignedField_immI w, isSignedField_immS w,
    ⟨hB, hB.even (by decide) (by omega)⟩, ⟨hJ, hJ.even (by decide) (by omega)⟩⟩

end Sys2Proof.Machine

/-! # Terminal states absorb (40_sequencer.md R122) -/

namespace Sys2Proof.Machine

theorem step_terminal {s : State} (h : s.status ≠ .running) : step s = .next s :=
  step_done (beginStep_terminal h)

theorem run_terminal {s : State} (h : s.status ≠ .running) (n : Nat) : Sys2Proof.core.run n s = .next s := by
  induction n with
  | zero => rfl
  | succ n ih => exact (run_succ n (step_terminal h)).trans ih

/-- Settles O23: a step from a terminal state is over in its first half, and by induction so is every step
after it. -/
theorem terminalStatesAbsorb : Obligations.TerminalStatesAbsorb := by
  unfold Obligations.TerminalStatesAbsorb
  intro s h
  exact ⟨step_terminal h, run_terminal h⟩

end Sys2Proof.Machine

/-! # The upper-immediate instructions (41_upper_immediate.md R130, R131) -/

namespace Sys2Proof.Machine

theorem exec_lui (rd : Reg) (imm20 : BitVec 20) (s : State) :
    exec (.lui rd imm20) s = .next (s.retireReg rd (immU imm20) s.pcPlus4) := rfl

theorem exec_auipc (rd : Reg) (imm20 : BitVec 20) (s : State) :
    exec (.auipc rd imm20) s = .next (s.retireReg rd (s.pc + immU imm20) s.pcPlus4) := rfl

/-- Settles O1: LUI retires with `imm_u` as the value of `x[rd]`, and `imm_u` is the field as a signed number
times 4096. -/
theorem luiWritesUpperImmediate : Obligations.LuiWritesUpperImmediate := by
  unfold Obligations.LuiWritesUpperImmediate
  intro rd imm20 s
  rw [exec_lui, immU_eq]
  exact retireReg_writes s rd _ s.pcPlus4

/-- Settles O2: AUIPC retires with the sum of its own pc and that same number as the value of `x[rd]`. -/
theorem auipcAddsUpperImmediateToPc : Obligations.AuipcAddsUpperImmediateToPc := by
  unfold Obligations.AuipcAddsUpperImmediateToPc
  intro rd imm20 s
  rw [exec_auipc, immU_eq]
  exact retireReg_writes s rd _ s.pcPlus4

end Sys2Proof.Machine

/-! # JAL (42_jumps.md R135) -/

namespace Sys2Proof.Machine

theorem exec_jal (rd : Reg) (off : BitVec 21) (s : State) :
    exec (.jal rd off) s = .next (s.retireReg rd s.pcPlus4 (s.pc + immJ off)) := rfl

/-- Settles O3: JAL retires with the link `pc + 4` as the value of `x[rd]` and its own pc plus `imm_j`, the
sign-extended offset, as the next pc. -/
theorem jalLinksAndJumps : Obligations.JalLinksAndJumps := by
  unfold Obligations.JalLinksAndJumps
  intro rd off s
  rw [exec_jal]
  exact retireReg_writes s rd s.pcPlus4 (s.pc + immJ off)

end Sys2Proof.Machine

/-! # The conditional branches (43_branches.md R140 to R146) -/

namespace Sys2Proof.Machine

section
variable (a b : Word)

theorem not_equalWords_iff : (!equalWords a b) = true ↔ a ≠ b := by
  rw [Bool.not_eq_true', ← Bool.not_eq_true, equalWords_iff]

theorem not_lessSigned_iff : (!lessSigned a b) = true ↔ a.toInt ≥ b.toInt := by
  rw [Bool.not_eq_true', ← Bool.not_eq_true, lessSigned_iff, not_lt]

theorem not_lessUnsigned_iff : (!lessUnsigned a b) = true ↔ a.toNat ≥ b.toNat := by
  rw [Bool.not_eq_true', ← Bool.not_eq_true, lessUnsigned_iff, not_lt]

end

section
variable (rs1 rs2 : Reg) (off : BitVec 13) (s : State)

theorem exec_beq :
    exec (.beq rs1 rs2 off) s = .next (branchIf (equalWords s.regs[rs1] s.regs[rs2]) off s) := rfl

theorem exec_bne :
    exec (.bne rs1 rs2 off) s = .next (branchIf (!equalWords s.regs[rs1] s.regs[rs2]) off s) := rfl

theorem exec_blt :
    exec (.blt rs1 rs2 off) s = .next (branchIf (lessSigned s.regs[rs1] s.regs[rs2]) off s) := rfl

theorem exec_bge :
    exec (.bge rs1 rs2 off) s = .next (branchIf (!lessSigned s.regs[rs1] s.regs[rs2]) off s) := rfl

theorem exec_bltu :
    exec (.bltu rs1 rs2 off) s = .next (branchIf (lessUnsigned s.regs[rs1] s.regs[rs2]) off s) := rfl

theorem exec_bgeu :
    exec (.bgeu rs1 rs2 off) s = .next (branchIf (!lessUnsigned s.regs[rs1] s.regs[rs2]) off s) := rfl

end

/-- R140 for a branch whose meaning is `branchIf` of a test on its two registers: it is taken exactly when the
condition holds that the test decides. -/
theorem branchesWhen_of_test {mk : Reg → Reg → BitVec 13 → Instr} {cond : Word → Word → Prop}
    {test : Word → Word → Bool} (htest : ∀ a b, test a b = true ↔ cond a b)
    (hexec : ∀ rs1 rs2 off s, exec (mk rs1 rs2 off) s = .next (branchIf (test s.regs[rs1] s.regs[rs2]) off s)) :
    BranchesWhen mk cond := by
  intro rs1 rs2 off s
  have hmoves := branchIf_moves (test s.regs[rs1] s.regs[rs2]) off s
  rw [← hexec] at hmoves
  constructor
  · intro htaken
    rwa [if_pos ((htest _ _).2 htaken)] at hmoves
  · intro hnot
    rwa [if_neg (mt (htest _ _).1 hnot)] at hmoves

/-- Settles O5: the test of BEQ decides equality of the two patterns, and that of BNE is its negation. -/
theorem equalityBranches : Obligations.EqualityBranches := by
  unfold Obligations.EqualityBranches
  exact ⟨branchesWhen_of_test equalWords_iff exec_beq, branchesWhen_of_test not_equalWords_iff exec_bne⟩

/-- Settles O6: the test of BLT decides the signed order of the two patterns; that of BGE is its negation, and
the order is total. -/
theorem signedBranches : Obligations.SignedBranches := by
  unfold Obligations.SignedBranches
  exact ⟨branchesWhen_of_test lessSigned_iff exec_blt, branchesWhen_of_test not_lessSigned_iff exec_bge⟩

/-- Settles O7: the test of BLTU decides the unsigned order of the two patterns; that of BGEU is its negation,
and the order is total. -/
theorem unsignedBranches : Obligations.UnsignedBranches := by
  unfold Obligations.UnsignedBranches
  exact ⟨branchesWhen_of_test lessUnsigned_iff exec_bltu, branchesWhen_of_test not_lessUnsigned_iff exec_bgeu⟩

end Sys2Proof.Machine

/-! # The loads that complete (44_loads.md R150 to R157) -/

namespace Sys2Proof.Machine

/-- `MemRead` of an aligned access in the window, its value as the sum that R53 prints. -/
theorem memRead_eq_leValue {s : State} {addr : Word} {w : Width} (haligned : addr.toNat % w.bytes = 0)
    (hin : InWindow s addr w.bytes) :
    memRead s addr w = .ok (BitVec.ofNat 64 (leValue s.mem addr.toNat w.bytes)) := by
  rcases memRead_cases s addr w with ⟨hmis, -⟩ | ⟨-, hout, -⟩ | ⟨-, -, hok⟩
  · exact absurd haligned hmis
  · exact absurd hin hout
  · rw [hok, Memory.readLE_eq_leValue]

theorem leValue_lt (m : Memory) (a n : Nat) : leValue m a n < 2 ^ (8 * n) :=
  Memory.readLE_eq_leValue m a n ▸ Memory.readLE_lt m a n

section
variable (rd rs1 : Reg) (imm : BitVec 12) (s : State)

theorem exec_lb : exec (.lb rd rs1 imm) s = .next (loadWith .byte (sext 8) rd rs1 imm s) := rfl

theorem exec_lh : exec (.lh rd rs1 imm) s = .next (loadWith .half (sext 16) rd rs1 imm s) := rfl

theorem exec_lw : exec (.lw rd rs1 imm) s = .next (loadWith .word (sext 32) rd rs1 imm s) := rfl

theorem exec_ld : exec (.ld rd rs1 imm) s = .next (loadWith .double id rd rs1 imm s) := rfl

theorem exec_lbu : exec (.lbu rd rs1 imm) s = .next (loadWith .byte (zext 8) rd rs1 imm s) := rfl

theorem exec_lhu : exec (.lhu rd rs1 imm) s = .next (loadWith .half (zext 16) rd rs1 imm s) := rfl

theorem exec_lwu : exec (.lwu rd rs1 imm) s = .next (loadWith .word (zext 32) rd rs1 imm s) := rfl

end

/-- R150 for an instruction whose meaning is `loadWith` of an extension: the width bounds the value that is
read, so the extension need agree with `val` only on numbers of that many bits. -/
theorem loadsWith_of_ext {mk : Reg → Reg → BitVec 12 → Instr} {w : Width} {ext : Word → Word} {val : Nat → Word}
    (hext : ∀ v, v < 2 ^ (8 * w.bytes) → ext (BitVec.ofNat 64 v) = val v)
    (hexec : ∀ rd rs1 imm s, exec (mk rd rs1 imm) s = .next (loadWith w ext rd rs1 imm s)) :
    LoadsWith mk w.bytes val := by
  intro rd rs1 imm s ea haligned hin
  have hread : memRead s (loadAddr s rs1 imm) w = .ok (BitVec.ofNat 64 (leValue s.mem ea.toNat w.bytes)) :=
    memRead_eq_leValue haligned hin
  rw [hexec, loadWith, hread, ← hext _ (leValue_lt s.mem ea.toNat w.bytes)]
  exact retireReg_writes s rd _ s.pcPlus4

/-- Settles O8: LB, LH and LW extend the sign of a value of their own width (R151 to R153); LD has nothing to
extend (R154). -/
theorem signedLoads : Obligations.SignedLoads := by
  unfold Obligations.SignedLoads
  exact ⟨loadsWith_of_ext (w := .byte) (fun _ => sext_ofNat (by decide) (by decide)) exec_lb,
    loadsWith_of_ext (w := .half) (fun _ => sext_ofNat (by decide) (by decide)) exec_lh,
    loadsWith_of_ext (w := .word) (fun _ => sext_ofNat (by decide) (by decide)) exec_lw,
    loadsWith_of_ext (w := .double) (fun _ _ => rfl) exec_ld⟩

/-- Settles O9: LBU, LHU and LWU put zeros above a value of their own width (R155 to R157). -/
theorem unsignedLoads : Obligations.UnsignedLoads := by
  unfold Obligations.UnsignedLoads
  exact ⟨loadsWith_of_ext (w := .byte) (fun _ => zext_ofNat (by decide)) exec_lbu,
    loadsWith_of_ext (w := .half) (fun _ => zext_ofNat (by decide)) exec_lhu,
    loadsWith_of_ext (w := .word) (fun _ => zext_ofNat (by decide)) exec_lwu⟩

end Sys2Proof.Machine

/-! # The stores that complete (45_stores.md R160 to R164) -/

namespace Sys2Proof.Machine

/-- `MemWrite` of an aligned access in the window writes the low bytes that R54 prints. -/
theorem memWrite_eq_writeLE {s : State} {addr : Word} {w : Width} (v : Word)
    (haligned : addr.toNat % w.bytes = 0) (hin : InWindow s addr w.bytes) :
    memWrite s addr w v = .ok { s with mem := s.mem.writeLE addr.toNat w.bytes v } := by
  rcases memWrite_cases s addr w v with ⟨hmis, -⟩ | ⟨-, hout, -⟩ | ⟨-, -, hok⟩
  · exact absurd haligned hmis
  · exact absurd hin hout
  · exact hok

/-- Each of the `n` bytes written at `a`, read back from where R54 puts it. -/
theorem read_writeLE_inside {m : Memory} (h : m.wf) (a : Nat) {n k : Nat} (v : Word) (hk : k < n) :
    (m.writeLE a n v).read (a + k) = v.extractLsb' (8 * k) 8 := by
  rw [Memory.read_writeLE h, if_pos (by omega), Nat.add_sub_cancel_left]

/-- No byte below or above the `n` bytes written at `a` changes. -/
theorem read_writeLE_outside {m : Memory} (h : m.wf) {a n x : Nat} (v : Word) (hx : x < a ∨ a + n ≤ x) :
    (m.writeLE a n v).read x = m.read x := by
  rw [Memory.read_writeLE h, if_neg (by omega)]

/-- Retiring after the bytes of a store are written (R160, R121). -/
theorem retire_stores {s : State} (h : s.mem.wf) (ea v : Word) (n : Nat) :
    StoresAt (.next (State.retire { s with mem := s.mem.writeLE ea.toNat n v } s.pcPlus4)) s ea n v :=
  ⟨_, rfl, retire_regs _ _, ⟨rfl, rfl, rfl, rfl⟩, fun _ hk => read_writeLE_inside h ea.toNat v hk,
    fun _ hx => read_writeLE_outside h v hx⟩

section
variable (rs1 rs2 : Reg) (imm : BitVec 12) (s : State)

theorem exec_sb : exec (.sb rs1 rs2 imm) s = .next (storeWith .byte rs1 rs2 imm s) := rfl

theorem exec_sh : exec (.sh rs1 rs2 imm) s = .next (storeWith .half rs1 rs2 imm s) := rfl

theorem exec_sw : exec (.sw rs1 rs2 imm) s = .next (storeWith .word rs1 rs2 imm s) := rfl

theorem exec_sd : exec (.sd rs1 rs2 imm) s = .next (storeWith .double rs1 rs2 imm s) := rfl

end

/-- R160 for an instruction whose meaning is `storeWith` of a width: aligned and in the window, its one
`MemWrite` succeeds and the instruction retires. -/
theorem storesLow_of_storeWith {mk : Reg → Reg → BitVec 12 → Instr} {w : Width}
    (hexec : ∀ rs1 rs2 imm s, exec (mk rs1 rs2 imm) s = .next (storeWith w rs1 rs2 imm s)) :
    StoresLow mk w.bytes := by
  intro rs1 rs2 imm s ea hwf haligned hin
  have hwrite : memWrite s (storeAddr s rs1 imm) w (s.readReg rs2)
      = .ok { s with mem := s.mem.writeLE ea.toNat w.bytes s.regs[rs2] } :=
    memWrite_eq_writeLE _ haligned hin
  rw [hexec, storeWith, hwrite]
  exact retire_stores hwf ea s.regs[rs2] w.bytes

/-- Settles O11: SB, SH, SW and SD are `storeWith` of one, two, four and eight bytes (R161 to R164). -/
theorem storesWriteLowBytes : Obligations.StoresWriteLowBytes := by
  unfold Obligations.StoresWriteLowBytes
  exact ⟨storesLow_of_storeWith (w := .byte) exec_sb, storesLow_of_storeWith (w := .half) exec_sh,
    storesLow_of_storeWith (w := .word) exec_sw, storesLow_of_storeWith (w := .double) exec_sd⟩

end Sys2Proof.Machine

/-! # The register-immediate operations (46_op_imm.md R171 to R174) -/

namespace Sys2Proof.Machine

/-- The 64-bit sum with `imm_i` is the sum of the two signed numbers modulo 2^64 (R171). -/
theorem add_immI (a : Word) (imm : BitVec 12) : a + immI imm = BitVec.ofInt 64 (a.toInt + imm.toInt) := by
  rw [← immI_toInt, BitVec.ofInt_add, BitVec.ofInt_toInt, BitVec.ofInt_toInt]

section
variable (rd rs1 : Reg) (imm : BitVec 12) (s : State)

theorem exec_addi : exec (.addi rd rs1 imm) s = .next (opImmWith (· + ·) rd rs1 imm s) := rfl

theorem exec_xori : exec (.xori rd rs1 imm) s = .next (opImmWith (· ^^^ ·) rd rs1 imm s) := rfl

theorem exec_ori : exec (.ori rd rs1 imm) s = .next (opImmWith (· ||| ·) rd rs1 imm s) := rfl

theorem exec_andi : exec (.andi rd rs1 imm) s = .next (opImmWith (· &&& ·) rd rs1 imm s) := rfl

end

/-- R170 for an instruction whose meaning is `opImmWith` of an operation: in every state it writes what the
operation gives on `x[rs1]` and `imm_i`. -/
theorem computesImm_of_opImmWith {mk : Reg → Reg → BitVec 12 → Instr} {op : Word → Word → Word}
    {f : Word → BitVec 12 → Word} (hop : ∀ a imm, op a (immI imm) = f a imm)
    (hexec : ∀ rd rs1 imm s, exec (mk rd rs1 imm) s = .next (opImmWith op rd rs1 imm s)) :
    ComputesImm mk f := by
  intro rd rs1 imm s
  rw [hexec, ← hop]
  exact opImmWith_writes op rd rs1 imm s

/-- Settles O13: ADDI, XORI, ORI and ANDI are `opImmWith` of the four operations. `imm_i` is the sign-extended
immediate, which for the sum is read as a signed number (`add_immI`). -/
theorem registerImmediateOperations : Obligations.RegisterImmediateOperations := by
  unfold Obligations.RegisterImmediateOperations
  exact ⟨computesImm_of_opImmWith add_immI exec_addi, computesImm_of_opImmWith (fun _ _ => rfl) exec_xori,
    computesImm_of_opImmWith (fun _ _ => rfl) exec_ori, computesImm_of_opImmWith (fun _ _ => rfl) exec_andi⟩

end Sys2Proof.Machine

/-! # The register-register operations (47_op.md R186 to R190) -/

namespace Sys2Proof.Machine

/-- The 64-bit difference is the difference of the two patterns as signed numbers modulo 2^64 (R187). -/
theorem sub_eq_ofInt (a b : Word) : a - b = BitVec.ofInt 64 (a.toInt - b.toInt) := by
  rw [Int.sub_eq_add_neg, BitVec.ofInt_add, BitVec.ofInt_neg, BitVec.ofInt_toInt, BitVec.ofInt_toInt,
    BitVec.sub_eq_add_neg]

section
variable (rd rs1 rs2 : Reg) (s : State)

theorem exec_add : exec (.add rd rs1 rs2) s = .next (opWith (· + ·) rd rs1 rs2 s) := rfl

theorem exec_sub : exec (.sub rd rs1 rs2) s = .next (opWith (· - ·) rd rs1 rs2 s) := rfl

theorem exec_xor : exec (.xor rd rs1 rs2) s = .next (opWith (· ^^^ ·) rd rs1 rs2 s) := rfl

theorem exec_or : exec (.or rd rs1 rs2) s = .next (opWith (· ||| ·) rd rs1 rs2 s) := rfl

theorem exec_and : exec (.and rd rs1 rs2) s = .next (opWith (· &&& ·) rd rs1 rs2 s) := rfl

end

/-- R185 for an instruction whose meaning is `opWith` of an operation: in every state it writes what the
operation gives on `x[rs1]` and `x[rs2]`. -/
theorem computesReg_of_opWith {mk : Reg → Reg → Reg → Instr} {op f : Word → Word → Word}
    (hop : ∀ a b, op a b = f a b)
    (hexec : ∀ rd rs1 rs2 s, exec (mk rd rs1 rs2) s = .next (opWith op rd rs1 rs2 s)) :
    ComputesReg mk f := by
  intro rd rs1 rs2 s
  rw [hexec, ← hop]
  exact opWith_writes op rd rs1 rs2 s

/-- R187: the encodings of SUB and ADD for the same registers have the same opcode and the same funct3, and
differ in funct7. -/
theorem sub_differs_from_add_in_funct7 (rd rs1 rs2 : Reg) :
    fieldOpcode (encode (.sub rd rs1 rs2)) = fieldOpcode (encode (.add rd rs1 rs2)) ∧
    fieldFunct3 (encode (.sub rd rs1 rs2)) = fieldFunct3 (encode (.add rd rs1 rs2)) ∧
    fieldFunct7 (encode (.sub rd rs1 rs2)) ≠ fieldFunct7 (encode (.add rd rs1 rs2)) := by
  simp only [encode, fieldOpcode_formatR, fieldFunct3_formatR, fieldFunct7_formatR, true_and]
  decide

/-- Settles O15: ADD, SUB, XOR, OR and AND are `opWith` of the five operations. The sum is read as unsigned
numbers (`BitVec.add_def`), the difference as signed ones (`sub_eq_ofInt`). -/
theorem registerRegisterOperations : Obligations.RegisterRegisterOperations := by
  unfold Obligations.RegisterRegisterOperations
  exact ⟨computesReg_of_opWith BitVec.add_def exec_add, computesReg_of_opWith sub_eq_ofInt exec_sub,
    computesReg_of_opWith (fun _ _ => rfl) exec_xor, computesReg_of_opWith (fun _ _ => rfl) exec_or,
    computesReg_of_opWith (fun _ _ => rfl) exec_and, sub_differs_from_add_in_funct7⟩

end Sys2Proof.Machine

/-! # The zero word (48_system_illegal_halt.md R195) -/

namespace Sys2Proof.Machine

/-- No class of R89 holds HALT: its only word is the one that R96 tests before the opcode. -/
theorem decode_ne_halt (extra : Bool) {w : InstrWord} (hw : w ≠ 0#32) : decode extra w ≠ .instr .halt := by
  rcases (opcode_cases w).resolve_left hw with
    h | h | h | h | h | h | h | h | h | h | ⟨-, h⟩
  · simp [decode_lui extra h]
  · simp [decode_auipc extra h]
  · simp [decode_jal extra h]
  · simp [decode_jalr extra h, ite_eq_iff]
  · simp [decode_branch extra h, decodeBranch, ite_eq_iff]
  · simp [decode_load extra h, decodeLoad, ite_eq_iff]
  · simp [decode_store extra h, decodeStore, ite_eq_iff]
  · simp [decode_opImm extra h, decodeOpImm, decodeOpImmExtra, ite_eq_iff]
  · simp [decode_op extra h, decodeOp, ite_eq_iff]
  · simp [decode_system extra h]
  · simp [decode_other extra hw h]

theorem decode_eq_halt_iff (extra : Bool) (w : InstrWord) : decode extra w = .instr .halt ↔ w = 0#32 := by
  constructor
  · exact not_imp_not.1 (decode_ne_halt extra)
  · rintro rfl
    exact decode_zero extra

theorem leValue_eq_zero {m : Memory} {a n : Nat} (h : ∀ k, k < n → m.read (a + k) = 0#8) :
    leValue m a n = 0 := by
  induction n with
  | zero => rfl
  | succ n ih =>
    have hlow : leValue m a n = 0 := ih fun k hk => h k (Nat.lt_succ_of_lt hk)
    have hlast : m.read (a + n) = 0#8 := h n (Nat.lt_succ_self n)
    simp [leValue, hlow, hlast]

/-- The fetch of R55 where all four bytes are zero. -/
theorem fetch32_zero {s : State} {addr : Word} (haligned : addr.toNat % 4 = 0) (hin : InWindow s addr 4)
    (hbytes : ∀ k, k < 4 → s.mem.read (addr.toNat + k) = 0#8) : fetch32 s addr = .ok 0#32 := by
  refine fetch32_ok_iff.2 ⟨haligned, hin, ?_⟩
  rw [Memory.readLE_eq_leValue, leValue_eq_zero hbytes]

theorem exec_halt (s : State) : exec .halt s = .next (s.stop .haltZero) := rfl

theorem exec_halt_ends (s : State) : EndsRun (exec .halt s) s .haltZero := by
  rw [exec_halt]
  exact stop_ends s .haltZero

/-- Settles O16: four zero bytes are fetched as the zero word, the step then runs HALT, and HALT writes the
status alone; no other word decodes to HALT. -/
theorem zeroWordHaltsCleanly : Obligations.ZeroWordHaltsCleanly := by
  unfold Obligations.ZeroWordHaltsCleanly
  refine ⟨fun s hready haligned hin hbytes => ?_, exec_halt_ends, decode_eq_halt_iff⟩
  have hfetch : fetch32 s s.pc = .ok 0#32 := fetch32_zero haligned hin hbytes
  rw [step_eq_exec hready hfetch (decode_zero s.cfg.opimmExtra)]
  exact exec_halt_ends s

end Sys2Proof.Machine

/-! # Decoding and encoding invert each other (30_encoding.md R80 to R95, R101) -/

namespace Sys2Proof

open Machine

/-! ## A word is the format of its fields, with the selecting fields given -/

section
variable {w : InstrWord} {f7 : BitVec 7} {f6 : BitVec 6} {f3 : BitVec 3} {op : BitVec 7}

theorem formatR_eq (h7 : fieldFunct7 w = f7) (h3 : fieldFunct3 w = f3) (hop : fieldOpcode w = op) :
    formatR f7 (fieldRs2 w) (fieldRs1 w) f3 (fieldRd w) op = w := by
  subst h7 h3 hop
  exact formatR_fields w

theorem formatI_eq (h3 : fieldFunct3 w = f3) (hop : fieldOpcode w = op) :
    formatI (fieldImmI w) (fieldRs1 w) f3 (fieldRd w) op = w := by
  subst h3 hop
  exact formatI_fields w

theorem formatI_shift_eq (h6 : fieldFunct6 w = f6) (h3 : fieldFunct3 w = f3) (hop : fieldOpcode w = op) :
    formatI (f6 ++ fieldShamt w) (fieldRs1 w) f3 (fieldRd w) op = w := by
  subst h6
  exact (shift_fields w).symm ▸ formatI_eq h3 hop

theorem formatS_eq (h3 : fieldFunct3 w = f3) (hop : fieldOpcode w = op) :
    formatS (fieldImmS w) (fieldRs2 w) (fieldRs1 w) f3 op = w := by
  subst h3 hop
  exact formatS_fields w

theorem formatB_eq (h3 : fieldFunct3 w = f3) (hop : fieldOpcode w = op) :
    formatB (fieldImmB w) (fieldRs2 w) (fieldRs1 w) f3 op = w := by
  subst h3 hop
  exact formatB_fields w

theorem formatU_eq (hop : fieldOpcode w = op) : formatU (fieldImmU w) (fieldRd w) op = w := by
  subst hop
  exact formatU_fields w

theorem formatJ_eq (hop : fieldOpcode w = op) : formatJ (fieldImmJ w) (fieldRd w) op = w := by
  subst hop
  exact formatJ_fields w

theorem system_eq (hop : fieldOpcode w = op) : (fieldRest w ++ op : InstrWord) = w := by
  subst hop
  exact system_fields w

end

/-! ## From the word to the instruction and back -/

/-- The instruction is the reading of the word: the word is its encoding, it is well formed, and its row exists
(R93, R101). -/
structure Reads (extra : Bool) (w : InstrWord) (i : Instr) : Prop where
  word : encode i = w
  wellFormed : i.wellFormed = true
  row : i.row.extraOnly = true → extra = true

section
variable {extra : Bool} {w : InstrWord} {i : Instr}

/-- An instruction of the baseline is read from a word that is its encoding. -/
theorem reads_baseline (henc : encode i = w) (hwf : i.wellFormed = true) (hrow : i.row.extraOnly = false) :
    Reads extra w i :=
  ⟨henc, hwf, fun h => absurd h (by simp [hrow])⟩

/-- One test of the decoder: the instruction is the one of the test, or comes after it. -/
theorem reads_of_ite {c : Prop} [Decidable c] {j : Instr} {d : Decoded}
    (h : (if c then .instr j else d) = Decoded.instr i) (hpass : c → Reads extra w j)
    (hfail : d = .instr i → Reads extra w i) : Reads extra w i := by
  by_cases hc : c
  · rw [if_pos hc] at h
    exact Decoded.instr.inj h ▸ hpass hc
  · rw [if_neg hc] at h
    exact hfail h

theorem reads_of_decodeBranch (hop : fieldOpcode w = 0b1100011#7) (h : decodeBranch w = .instr i) :
    Reads extra w i := by
  have heven := evenOffset_fieldImmB w
  iterate 6 refine reads_of_ite h (fun hc => reads_baseline (formatB_eq hc hop) heven rfl) fun h => ?_
  nomatch h

theorem reads_of_decodeLoad (hop : fieldOpcode w = 0b0000011#7) (h : decodeLoad w = .instr i) :
    Reads extra w i := by
  iterate 7 refine reads_of_ite h (fun hc => reads_baseline (formatI_eq hc hop) rfl rfl) fun h => ?_
  nomatch h

theorem reads_of_decodeStore (hop : fieldOpcode w = 0b0100011#7) (h : decodeStore w = .instr i) :
    Reads extra w i := by
  iterate 4 refine reads_of_ite h (fun hc => reads_baseline (formatS_eq hc hop) rfl rfl) fun h => ?_
  nomatch h

theorem reads_of_decodeOpImmExtra (hop : fieldOpcode w = 0b0010011#7) (h : decodeOpImmExtra w = .instr i) :
    Reads true w i := by
  iterate 2 refine reads_of_ite h (fun hc => ⟨formatI_eq hc hop, rfl, fun _ => rfl⟩) fun h => ?_
  iterate 3 refine reads_of_ite h (fun hc => ⟨formatI_shift_eq hc.2 hc.1 hop, rfl, fun _ => rfl⟩) fun h => ?_
  nomatch h

theorem reads_of_decodeOpImm (hop : fieldOpcode w = 0b0010011#7) (h : decodeOpImm extra w = .instr i) :
    Reads extra w i := by
  iterate 4 refine reads_of_ite h (fun hc => reads_baseline (formatI_eq hc hop) rfl rfl) fun h => ?_
  by_cases hextra : extra = true
  · subst hextra
    exact reads_of_decodeOpImmExtra hop h
  · rw [if_neg hextra] at h
    nomatch h

theorem reads_of_decodeOp (hop : fieldOpcode w = 0b0110011#7) (h : decodeOp w = .instr i) :
    Reads extra w i := by
  iterate 5 refine reads_of_ite h (fun hc => reads_baseline (formatR_eq hc.2 hc.1 hop) rfl rfl) fun h => ?_
  nomatch h

/-- What a word decodes to reads the word, along the classes of R89. -/
theorem reads_of_decode (h : decode extra w = .instr i) : Reads extra w i := by
  rcases opcode_cases w with
    rfl | hop | hop | hop | hop | hop | hop | hop | hop | hop | hop | ⟨hw, hop⟩
  · obtain rfl := Decoded.instr.inj h
    exact reads_baseline rfl rfl rfl
  · obtain rfl := Decoded.instr.inj ((decode_lui extra hop).symm.trans h)
    exact reads_baseline (formatU_eq hop) rfl rfl
  · obtain rfl := Decoded.instr.inj ((decode_auipc extra hop).symm.trans h)
    exact reads_baseline (formatU_eq hop) rfl rfl
  · obtain rfl := Decoded.instr.inj ((decode_jal extra hop).symm.trans h)
    exact reads_baseline (formatJ_eq hop) (evenOffset_fieldImmJ w) rfl
  · rw [decode_jalr extra hop] at h
    split_ifs at h with h3
    obtain rfl := Decoded.instr.inj h
    exact reads_baseline (formatI_eq h3 hop) rfl rfl
  · exact reads_of_decodeBranch hop ((decode_branch extra hop).symm.trans h)
  · exact reads_of_decodeLoad hop ((decode_load extra hop).symm.trans h)
  · exact reads_of_decodeStore hop ((decode_store extra hop).symm.trans h)
  · exact reads_of_decodeOpImm hop ((decode_opImm extra hop).symm.trans h)
  · exact reads_of_decodeOp hop ((decode_op extra hop).symm.trans h)
  · obtain rfl := Decoded.instr.inj ((decode_system extra hop).symm.trans h)
    exact reads_baseline (system_eq hop) rfl rfl
  · rw [decode_other extra hw hop] at h
    cases h

end

/-- Settles O43: the fields that select an instruction and the ones it takes as operands make up the whole
word, in each of the six formats. -/
theorem encodeInvertsDecode : Obligations.EncodeInvertsDecode := by
  unfold Obligations.EncodeInvertsDecode
  intro extra w i h
  obtain ⟨henc, hwf, -⟩ := reads_of_decode h
  exact ⟨henc, hwf⟩

/-- The family `Laws.RoundTrip` over every instruction. -/
theorem decode_encode (i : Instr) : Laws.RoundTrip.Statement i := by
  cases i with
  | lui => exact Laws.RoundTrip.lui _ _
  | auipc => exact Laws.RoundTrip.auipc _ _
  | jal => exact Laws.RoundTrip.jal _ _
  | jalr => exact Laws.RoundTrip.jalr _ _ _
  | beq => exact Laws.RoundTrip.beq _ _ _
  | bne => exact Laws.RoundTrip.bne _ _ _
  | blt => exact Laws.RoundTrip.blt _ _ _
  | bge => exact Laws.RoundTrip.bge _ _ _
  | bltu => exact Laws.RoundTrip.bltu _ _ _
  | bgeu => exact Laws.RoundTrip.bgeu _ _ _
  | lb => exact Laws.RoundTrip.lb _ _ _
  | lh => exact Laws.RoundTrip.lh _ _ _
  | lw => exact Laws.RoundTrip.lw _ _ _
  | ld => exact Laws.RoundTrip.ld _ _ _
  | lbu => exact Laws.RoundTrip.lbu _ _ _
  | lhu => exact Laws.RoundTrip.lhu _ _ _
  | lwu => exact Laws.RoundTrip.lwu _ _ _
  | sb => exact Laws.RoundTrip.sb _ _ _
  | sh => exact Laws.RoundTrip.sh _ _ _
  | sw => exact Laws.RoundTrip.sw _ _ _
  | sd => exact Laws.RoundTrip.sd _ _ _
  | addi => exact Laws.RoundTrip.addi _ _ _
  | xori => exact Laws.RoundTrip.xori _ _ _
  | ori => exact Laws.RoundTrip.ori _ _ _
  | andi => exact Laws.RoundTrip.andi _ _ _
  | add => exact Laws.RoundTrip.add _ _ _
  | sub => exact Laws.RoundTrip.sub _ _ _
  | xor => exact Laws.RoundTrip.xor _ _ _
  | or => exact Laws.RoundTrip.or _ _ _
  | and => exact Laws.RoundTrip.and _ _ _
  | halt => exact Laws.RoundTrip.halt
  | system => exact Laws.RoundTrip.system _
  | slti => exact Laws.RoundTrip.slti _ _ _
  | sltiu => exact Laws.RoundTrip.sltiu _ _ _
  | slli => exact Laws.RoundTrip.slli _ _ _
  | srli => exact Laws.RoundTrip.srli _ _ _
  | srai => exact Laws.RoundTrip.srai _ _ _

/-- Settles O42: each instruction is decoded back from its encoding, and four bytes in memory order are
decoded as the word they hold. -/
theorem decodeInvertsEncode : Obligations.DecodeInvertsEncode := by
  unfold Obligations.DecodeInvertsEncode
  intro extra i rest hwf hrow
  have hdecode := decode_encode i extra hwf hrow
  exact ⟨hdecode, by rw [decodeBytes_wordBytes, hdecode]⟩

/-- A word decodes to exactly the instruction that reads it. -/
theorem decode_eq_instr_iff {extra : Bool} {w : InstrWord} {i : Instr} :
    decode extra w = .instr i ↔ Reads extra w i := by
  refine ⟨reads_of_decode, ?_⟩
  rintro ⟨rfl, hwf, hrow⟩
  exact decode_encode i extra hwf hrow

end Sys2Proof

/-! # The rows of the opcode table (30_encoding.md R97, R101) -/

namespace Sys2Proof

open Machine

/-! ## The words of a row, format by format

The instruction is given by what it reads from a word laid out in its format with the selecting fields of the
row's pattern; the row's mask then gives every word of the row that layout. -/

section
variable {extra : Bool} {p w : InstrWord}

theorem reads_formatR (mk : Reg → Reg → Reg → Instr)
    (hmk : ∀ rd rs1 rs2, Reads extra (formatR (fieldFunct7 p) rs2 rs1 (fieldFunct3 p) rd (fieldOpcode p))
      (mk rd rs1 rs2))
    (hw : w &&& 0xFE00707F#32 = p) : Reads extra w (mk (regAt w 7) (regAt w 15) (regAt w 20)) := by
  have h := hmk (fieldRd w) (fieldRs1 w) (fieldRs2 w)
  rw [formatR_eq (fieldFunct7_of_mask hw rfl) (fieldFunct3_of_mask hw rfl) (fieldOpcode_of_mask hw rfl)] at h
  rwa [regAt_rd, regAt_rs1, regAt_rs2]

theorem reads_formatI (mk : Reg → Reg → BitVec 12 → Instr)
    (hmk : ∀ rd rs1 imm, Reads extra (formatI imm rs1 (fieldFunct3 p) rd (fieldOpcode p)) (mk rd rs1 imm))
    (hw : w &&& 0x0000707F#32 = p) : Reads extra w (mk (regAt w 7) (regAt w 15) (immIBits w)) := by
  have h := hmk (fieldRd w) (fieldRs1 w) (fieldImmI w)
  rw [formatI_eq (fieldFunct3_of_mask hw rfl) (fieldOpcode_of_mask hw rfl)] at h
  rwa [regAt_rd, regAt_rs1, immIBits_eq]

theorem reads_shift (mk : Reg → Reg → BitVec 6 → Instr)
    (hmk : ∀ rd rs1 sh, Reads extra (formatI (fieldFunct6 p ++ sh) rs1 (fieldFunct3 p) rd (fieldOpcode p))
      (mk rd rs1 sh))
    (hw : w &&& 0xFC00707F#32 = p) : Reads extra w (mk (regAt w 7) (regAt w 15) (shamtBits w)) := by
  have h := hmk (fieldRd w) (fieldRs1 w) (fieldShamt w)
  rw [formatI_shift_eq (fieldFunct6_of_mask hw rfl) (fieldFunct3_of_mask hw rfl)
    (fieldOpcode_of_mask hw rfl)] at h
  rwa [regAt_rd, regAt_rs1, shamtBits_eq]

theorem reads_formatS (mk : Reg → Reg → BitVec 12 → Instr)
    (hmk : ∀ rs1 rs2 imm, Reads extra (formatS imm rs2 rs1 (fieldFunct3 p) (fieldOpcode p)) (mk rs1 rs2 imm))
    (hw : w &&& 0x0000707F#32 = p) : Reads extra w (mk (regAt w 15) (regAt w 20) (immSBits w)) := by
  have h := hmk (fieldRs1 w) (fieldRs2 w) (fieldImmS w)
  rw [formatS_eq (fieldFunct3_of_mask hw rfl) (fieldOpcode_of_mask hw rfl)] at h
  rwa [regAt_rs1, regAt_rs2, immSBits_eq]

theorem reads_formatB (mk : Reg → Reg → BitVec 13 → Instr)
    (hmk : ∀ rs1 rs2 off, evenOffset off = true →
      Reads extra (formatB off rs2 rs1 (fieldFunct3 p) (fieldOpcode p)) (mk rs1 rs2 off))
    (hw : w &&& 0x0000707F#32 = p) : Reads extra w (mk (regAt w 15) (regAt w 20) (immBBits w)) := by
  have h := hmk (fieldRs1 w) (fieldRs2 w) (fieldImmB w) (evenOffset_fieldImmB w)
  rw [formatB_eq (fieldFunct3_of_mask hw rfl) (fieldOpcode_of_mask hw rfl)] at h
  rwa [regAt_rs1, regAt_rs2, immBBits_eq]

theorem reads_formatU (mk : Reg → BitVec 20 → Instr)
    (hmk : ∀ rd imm20, Reads extra (formatU imm20 rd (fieldOpcode p)) (mk rd imm20))
    (hw : w &&& 0x0000007F#32 = p) : Reads extra w (mk (regAt w 7) (immUBits w)) := by
  have h := hmk (fieldRd w) (fieldImmU w)
  rw [formatU_eq (fieldOpcode_of_mask hw rfl)] at h
  rwa [regAt_rd, immUBits_eq]

theorem reads_formatJ (mk : Reg → BitVec 21 → Instr)
    (hmk : ∀ rd off, evenOffset off = true → Reads extra (formatJ off rd (fieldOpcode p)) (mk rd off))
    (hw : w &&& 0x0000007F#32 = p) : Reads extra w (mk (regAt w 7) (immJBits w)) := by
  have h := hmk (fieldRd w) (fieldImmJ w) (evenOffset_fieldImmJ w)
  rw [formatJ_eq (fieldOpcode_of_mask hw rfl)] at h
  rwa [regAt_rd, immJBits_eq]

theorem restBits_eq (w : InstrWord) : BitVec.ofNat 25 (bitsOf w 31 7) = fieldRest w := by
  rw [bitsOf, ← toNat_extract, BitVec.ofNat_toNat, BitVec.setWidth_eq]
  rfl

theorem reads_system (hw : w &&& 0x0000007F#32 = 0x00000073#32) :
    Reads extra w (.system (BitVec.ofNat 25 (bitsOf w 31 7))) := by
  rw [restBits_eq]
  exact reads_baseline (system_eq (fieldOpcode_of_mask hw rfl)) rfl rfl

end

section
variable {p m : InstrWord} {f : InstrWord → Instr}

theorem wordsAre_of_reads (h : ∀ {extra w}, w &&& m = p → Reads extra w (f w)) : WordsAre p m f :=
  fun _ _ hw => decode_eq_instr_iff.2 (h hw)

theorem wordsAreWithExtra_of_reads (h : ∀ {w}, w &&& m = p → Reads true w (f w)) : WordsAreWithExtra p m f :=
  fun _ hw => decode_eq_instr_iff.2 (h hw)

end

/-- Settles O41: in each format the bits of the row's pattern and the numbers of the operands' fields are all
the bits of the word. -/
theorem wordsHaveTheirFields : Obligations.WordsHaveTheirFields := by
  unfold Obligations.WordsHaveTheirFields
  exact ⟨
    wordsAre_of_reads (reads_formatU .lui fun _ _ => reads_baseline rfl rfl rfl),
    wordsAre_of_reads (reads_formatU .auipc fun _ _ => reads_baseline rfl rfl rfl),
    wordsAre_of_reads (reads_formatJ .jal fun _ _ h => reads_baseline rfl h rfl),
    wordsAre_of_reads (reads_formatI .jalr fun _ _ _ => reads_baseline rfl rfl rfl),
    wordsAre_of_reads (reads_formatB .beq fun _ _ _ h => reads_baseline rfl h rfl),
    wordsAre_of_reads (reads_formatB .bne fun _ _ _ h => reads_baseline rfl h rfl),
    wordsAre_of_reads (reads_formatB .blt fun _ _ _ h => reads_baseline rfl h rfl),
    wordsAre_of_reads (reads_formatB .bge fun _ _ _ h => reads_baseline rfl h rfl),
    wordsAre_of_reads (reads_formatB .bltu fun _ _ _ h => reads_baseline rfl h rfl),
    wordsAre_of_reads (reads_formatB .bgeu fun _ _ _ h => reads_baseline rfl h rfl),
    wordsAre_of_reads (reads_formatI .lb fun _ _ _ => reads_baseline rfl rfl rfl),
    wordsAre_of_reads (reads_formatI .lh fun _ _ _ => reads_baseline rfl rfl rfl),
    wordsAre_of_reads (reads_formatI .lw fun _ _ _ => reads_baseline rfl rfl rfl),
    wordsAre_of_reads (reads_formatI .ld fun _ _ _ => reads_baseline rfl rfl rfl),
    wordsAre_of_reads (reads_formatI .lbu fun _ _ _ => reads_baseline rfl rfl rfl),
    wordsAre_of_reads (reads_formatI .lhu fun _ _ _ => reads_baseline rfl rfl rfl),
    wordsAre_of_reads (reads_formatI .lwu fun _ _ _ => reads_baseline rfl rfl rfl),
    wordsAre_of_reads (reads_formatS .sb fun _ _ _ => reads_baseline rfl rfl rfl),
    wordsAre_of_reads (reads_formatS .sh fun _ _ _ => reads_baseline rfl rfl rfl),
    wordsAre_of_reads (reads_formatS .sw fun _ _ _ => reads_baseline rfl rfl rfl),
    wordsAre_of_reads (reads_formatS .sd fun _ _ _ => reads_baseline rfl rfl rfl),
    wordsAre_of_reads (reads_formatI .addi fun _ _ _ => reads_baseline rfl rfl rfl),
    wordsAre_of_reads (reads_formatI .xori fun _ _ _ => reads_baseline rfl rfl rfl),
    wordsAre_of_reads (reads_formatI .ori fun _ _ _ => reads_baseline rfl rfl rfl),
    wordsAre_of_reads (reads_formatI .andi fun _ _ _ => reads_baseline rfl rfl rfl),
    wordsAre_of_reads (reads_formatR .add fun _ _ _ => reads_baseline rfl rfl rfl),
    wordsAre_of_reads (reads_formatR .sub fun _ _ _ => reads_baseline rfl rfl rfl),
    wordsAre_of_reads (reads_formatR .xor fun _ _ _ => reads_baseline rfl rfl rfl),
    wordsAre_of_reads (reads_formatR .or fun _ _ _ => reads_baseline rfl rfl rfl),
    wordsAre_of_reads (reads_formatR .and fun _ _ _ => reads_baseline rfl rfl rfl),
    wordsAre_of_reads reads_system,
    wordsAreWithExtra_of_reads (reads_formatI .slti fun _ _ _ => ⟨rfl, rfl, fun _ => rfl⟩),
    wordsAreWithExtra_of_reads (reads_formatI .sltiu fun _ _ _ => ⟨rfl, rfl, fun _ => rfl⟩),
    wordsAreWithExtra_of_reads (reads_shift .slli fun _ _ _ => ⟨rfl, rfl, fun _ => rfl⟩),
    wordsAreWithExtra_of_reads (reads_shift .srli fun _ _ _ => ⟨rfl, rfl, fun _ => rfl⟩),
    wordsAreWithExtra_of_reads (reads_shift .srai fun _ _ _ => ⟨rfl, rfl, fun _ => rfl⟩)⟩

end Sys2Proof

/-! # The decoder and the opcode table (30_encoding.md R97, R101) -/

namespace Sys2Proof

open Machine

/-! ## What a row's mask keeps of an encoding, format by format -/

section
variable (f7 : BitVec 7) (f6 sh : BitVec 6) (imm : BitVec 12) (imm20 : BitVec 20) (offB : BitVec 13)
  (offJ : BitVec 21) (rs2 rs1 : Reg) (f3 : BitVec 3) (rd : Reg) (rest : BitVec 25) (op : BitVec 7)

theorem and_mask_formatR : formatR f7 rs2 rs1 f3 rd op &&& 0xFE00707F#32 = f7 ++ 0#10 ++ f3 ++ 0#5 ++ op := by
  rw [and_mask_funct7, fieldFunct7_formatR, fieldFunct3_formatR, fieldOpcode_formatR]

theorem and_mask_formatI : formatI imm rs1 f3 rd op &&& 0x0000707F#32 = 0#17 ++ f3 ++ 0#5 ++ op := by
  rw [and_mask_funct3, fieldFunct3_formatI, fieldOpcode_formatI]

theorem and_mask_shift :
    formatI (f6 ++ sh) rs1 f3 rd op &&& 0xFC00707F#32 = f6 ++ 0#11 ++ f3 ++ 0#5 ++ op := by
  rw [and_mask_funct6, fieldFunct6_formatI, fieldFunct3_formatI, fieldOpcode_formatI]

theorem and_mask_formatS : formatS imm rs2 rs1 f3 op &&& 0x0000707F#32 = 0#17 ++ f3 ++ 0#5 ++ op := by
  rw [and_mask_funct3, fieldFunct3_formatS, fieldOpcode_formatS]

theorem and_mask_formatB : formatB offB rs2 rs1 f3 op &&& 0x0000707F#32 = 0#17 ++ f3 ++ 0#5 ++ op := by
  rw [and_mask_funct3, fieldFunct3_formatB, fieldOpcode_formatB]

theorem and_mask_formatU : formatU imm20 rd op &&& 0x0000007F#32 = 0#25 ++ op := by
  rw [and_mask_opcode, fieldOpcode_formatU]

theorem and_mask_formatJ : formatJ offJ rd op &&& 0x0000007F#32 = 0#25 ++ op := by
  rw [and_mask_opcode, fieldOpcode_formatJ]

theorem and_mask_system : (rest ++ op : InstrWord) &&& 0x0000007F#32 = 0#25 ++ op := by
  rw [and_mask_opcode, fieldOpcode_system]

end

/-! ## The two directions -/

/-- An encoding has the bits of its instruction's row. -/
theorem row_matches_encode (i : Instr) : i.row.Matches (encode i) := by
  cases i with
  | lui => exact and_mask_formatU ..
  | auipc => exact and_mask_formatU ..
  | jal => exact and_mask_formatJ ..
  | jalr => exact and_mask_formatI ..
  | beq => exact and_mask_formatB ..
  | bne => exact and_mask_formatB ..
  | blt => exact and_mask_formatB ..
  | bge => exact and_mask_formatB ..
  | bltu => exact and_mask_formatB ..
  | bgeu => exact and_mask_formatB ..
  | lb => exact and_mask_formatI ..
  | lh => exact and_mask_formatI ..
  | lw => exact and_mask_formatI ..
  | ld => exact and_mask_formatI ..
  | lbu => exact and_mask_formatI ..
  | lhu => exact and_mask_formatI ..
  | lwu => exact and_mask_formatI ..
  | sb => exact and_mask_formatS ..
  | sh => exact and_mask_formatS ..
  | sw => exact and_mask_formatS ..
  | sd => exact and_mask_formatS ..
  | addi => exact and_mask_formatI ..
  | xori => exact and_mask_formatI ..
  | ori => exact and_mask_formatI ..
  | andi => exact and_mask_formatI ..
  | add => exact and_mask_formatR ..
  | sub => exact and_mask_formatR ..
  | xor => exact and_mask_formatR ..
  | or => exact and_mask_formatR ..
  | and => exact and_mask_formatR ..
  | halt => exact BitVec.zero_and
  | system => exact and_mask_system ..
  | slti => exact and_mask_formatI ..
  | sltiu => exact and_mask_formatI ..
  | slli => exact and_mask_shift ..
  | srli => exact and_mask_shift ..
  | srai => exact and_mask_shift ..

/-- A row depends on the constructor alone, and stands at its place in the table. -/
theorem row_mem_opcodeTable (i : Instr) : i.row ∈ opcodeTable := by
  cases i with
  | lui => exact List.mem_of_getElem? (i := 0) rfl
  | auipc => exact List.mem_of_getElem? (i := 1) rfl
  | jal => exact List.mem_of_getElem? (i := 2) rfl
  | jalr => exact List.mem_of_getElem? (i := 3) rfl
  | beq => exact List.mem_of_getElem? (i := 4) rfl
  | bne => exact List.mem_of_getElem? (i := 5) rfl
  | blt => exact List.mem_of_getElem? (i := 6) rfl
  | bge => exact List.mem_of_getElem? (i := 7) rfl
  | bltu => exact List.mem_of_getElem? (i := 8) rfl
  | bgeu => exact List.mem_of_getElem? (i := 9) rfl
  | lb => exact List.mem_of_getElem? (i := 10) rfl
  | lh => exact List.mem_of_getElem? (i := 11) rfl
  | lw => exact List.mem_of_getElem? (i := 12) rfl
  | ld => exact List.mem_of_getElem? (i := 13) rfl
  | lbu => exact List.mem_of_getElem? (i := 14) rfl
  | lhu => exact List.mem_of_getElem? (i := 15) rfl
  | lwu => exact List.mem_of_getElem? (i := 16) rfl
  | sb => exact List.mem_of_getElem? (i := 17) rfl
  | sh => exact List.mem_of_getElem? (i := 18) rfl
  | sw => exact List.mem_of_getElem? (i := 19) rfl
  | sd => exact List.mem_of_getElem? (i := 20) rfl
  | addi => exact List.mem_of_getElem? (i := 21) rfl
  | xori => exact List.mem_of_getElem? (i := 22) rfl
  | ori => exact List.mem_of_getElem? (i := 23) rfl
  | andi => exact List.mem_of_getElem? (i := 24) rfl
  | add => exact List.mem_of_getElem? (i := 25) rfl
  | sub => exact List.mem_of_getElem? (i := 26) rfl
  | xor => exact List.mem_of_getElem? (i := 27) rfl
  | or => exact List.mem_of_getElem? (i := 28) rfl
  | and => exact List.mem_of_getElem? (i := 29) rfl
  | halt => exact List.mem_of_getElem? (i := 30) rfl
  | system => exact List.mem_of_getElem? (i := 31) rfl
  | slti => exact List.mem_of_getElem? (i := 32) rfl
  | sltiu => exact List.mem_of_getElem? (i := 33) rfl
  | slli => exact List.mem_of_getElem? (i := 34) rfl
  | srli => exact List.mem_of_getElem? (i := 35) rfl
  | srai => exact List.mem_of_getElem? (i := 36) rfl

/-- A word with the bits of an instruction's row, when the row exists, decodes to an instruction of that row. -/
theorem decode_of_row_matches {extra : Bool} {w : InstrWord} (j : Instr) (h : j.row.Matches w)
    (hrow : j.row.extraOnly = true → extra = true) : ∃ i, decode extra w = .instr i ∧ i.row = j.row := by
  obtain ⟨hlui, hauipc, hjal, hjalr, hbeq, hbne, hblt, hbge, hbltu, hbgeu, hlb, hlh, hlw, hld, hlbu, hlhu,
    hlwu, hsb, hsh, hsw, hsd, haddi, hxori, hori, handi, hadd, hsub, hxor, hor, hand, hsystem, hslti,
    hsltiu, hslli, hsrli, hsrai⟩ := wordsHaveTheirFields
  cases j with
  | lui => exact ⟨_, hlui extra w h, rfl⟩
  | auipc => exact ⟨_, hauipc extra w h, rfl⟩
  | jal => exact ⟨_, hjal extra w h, rfl⟩
  | jalr => exact ⟨_, hjalr extra w h, rfl⟩
  | beq => exact ⟨_, hbeq extra w h, rfl⟩
  | bne => exact ⟨_, hbne extra w h, rfl⟩
  | blt => exact ⟨_, hblt extra w h, rfl⟩
  | bge => exact ⟨_, hbge extra w h, rfl⟩
  | bltu => exact ⟨_, hbltu extra w h, rfl⟩
  | bgeu => exact ⟨_, hbgeu extra w h, rfl⟩
  | lb => exact ⟨_, hlb extra w h, rfl⟩
  | lh => exact ⟨_, hlh extra w h, rfl⟩
  | lw => exact ⟨_, hlw extra w h, rfl⟩
  | ld => exact ⟨_, hld extra w h, rfl⟩
  | lbu => exact ⟨_, hlbu extra w h, rfl⟩
  | lhu => exact ⟨_, hlhu extra w h, rfl⟩
  | lwu => exact ⟨_, hlwu extra w h, rfl⟩
  | sb => exact ⟨_, hsb extra w h, rfl⟩
  | sh => exact ⟨_, hsh extra w h, rfl⟩
  | sw => exact ⟨_, hsw extra w h, rfl⟩
  | sd => exact ⟨_, hsd extra w h, rfl⟩
  | addi => exact ⟨_, haddi extra w h, rfl⟩
  | xori => exact ⟨_, hxori extra w h, rfl⟩
  | ori => exact ⟨_, hori extra w h, rfl⟩
  | andi => exact ⟨_, handi extra w h, rfl⟩
  | add => exact ⟨_, hadd extra w h, rfl⟩
  | sub => exact ⟨_, hsub extra w h, rfl⟩
  | xor => exact ⟨_, hxor extra w h, rfl⟩
  | or => exact ⟨_, hor extra w h, rfl⟩
  | and => exact ⟨_, hand extra w h, rfl⟩
  | halt => exact ⟨.halt, (decode_eq_halt_iff extra w).2 (BitVec.and_allOnes.symm.trans h), rfl⟩
  | system => exact ⟨_, hsystem extra w h, rfl⟩
  | slti =>
    obtain rfl := hrow rfl
    exact ⟨_, hslti w h, rfl⟩
  | sltiu =>
    obtain rfl := hrow rfl
    exact ⟨_, hsltiu w h, rfl⟩
  | slli =>
    obtain rfl := hrow rfl
    exact ⟨_, hslli w h, rfl⟩
  | srli =>
    obtain rfl := hrow rfl
    exact ⟨_, hsrli w h, rfl⟩
  | srai =>
    obtain rfl := hrow rfl
    exact ⟨_, hsrai w h, rfl⟩

/-- Settles O44: a decoded word is the encoding of its instruction, which has the bits of its row; and the words
of a row are given by `wordsHaveTheirFields`. -/
theorem decoderAgreesWithTable : Obligations.DecoderAgreesWithTable := by
  unfold Obligations.DecoderAgreesWithTable
  refine ⟨fun extra w i h => ?_, fun extra w r hr hmatch hrow => ?_⟩
  · obtain ⟨rfl, -, hextra⟩ := reads_of_decode h
    exact ⟨row_mem_opcodeTable i, row_matches_encode i, hextra⟩
  · obtain ⟨j, -, rfl⟩ := List.mem_map.1 hr
    exact decode_of_row_matches j hmatch hrow

end Sys2Proof

/-! # The words without an instruction (48_system_illegal_halt.md R197) -/

namespace Sys2Proof.Machine

/-! ## Within a class: every test of the decoder fails, said of the numbers of the fields -/

/-- One test of the decoder: a word that passes it has an instruction, so an illegal word fails it and is
illegal by what comes after. -/
theorem exists_illegal_ite {c : Prop} [Decidable c] {i : Instr} {d : Decoded} :
    (∃ why, (if c then .instr i else d) = Decoded.illegal why) ↔ ¬ c ∧ ∃ why, d = .illegal why := by
  by_cases h : c <;> simp [h]

theorem exists_illegal (r : Reject) : ∃ why, Decoded.illegal r = .illegal why := ⟨r, rfl⟩

section
variable (w : InstrWord)

theorem fieldFunct3_eq_iff (x : BitVec 3) : fieldFunct3 w = x ↔ bitsOf w 14 12 = x.toNat := by
  rw [bitsOf_funct3, BitVec.toNat_inj]

theorem fieldFunct6_eq_iff (x : BitVec 6) : fieldFunct6 w = x ↔ bitsOf w 31 26 = x.toNat := by
  rw [bitsOf_funct6, BitVec.toNat_inj]

theorem fieldFunct7_eq_iff (x : BitVec 7) : fieldFunct7 w = x ↔ bitsOf w 31 25 = x.toNat := by
  rw [bitsOf_funct7, BitVec.toNat_inj]

theorem bitsOf_funct3_lt : bitsOf w 14 12 < 8 := bitsOf_lt w 14 12

theorem decodeBranch_illegal_iff :
    (∃ why, decodeBranch w = .illegal why) ↔ bitsOf w 14 12 = 2 ∨ bitsOf w 14 12 = 3 := by
  have h3 := bitsOf_funct3_lt w
  simp only [decodeBranch, exists_illegal_ite, exists_illegal, and_true, fieldFunct3_eq_iff,
    BitVec.toNat_ofNat]
  omega

theorem decodeLoad_illegal_iff : (∃ why, decodeLoad w = .illegal why) ↔ bitsOf w 14 12 = 7 := by
  have h3 := bitsOf_funct3_lt w
  simp only [decodeLoad, exists_illegal_ite, exists_illegal, and_true, fieldFunct3_eq_iff, BitVec.toNat_ofNat]
  omega

theorem decodeStore_illegal_iff : (∃ why, decodeStore w = .illegal why) ↔ 4 ≤ bitsOf w 14 12 := by
  simp only [decodeStore, exists_illegal_ite, exists_illegal, and_true, fieldFunct3_eq_iff, BitVec.toNat_ofNat]
  omega

theorem decodeOpImm_false_illegal_iff : (∃ why, decodeOpImm false w = .illegal why) ↔
    bitsOf w 14 12 = 1 ∨ bitsOf w 14 12 = 2 ∨ bitsOf w 14 12 = 3 ∨ bitsOf w 14 12 = 5 := by
  have h3 := bitsOf_funct3_lt w
  simp only [decodeOpImm, Bool.false_eq_true, if_false, exists_illegal_ite, exists_illegal, and_true,
    fieldFunct3_eq_iff, BitVec.toNat_ofNat]
  omega

theorem decodeOpImm_true_illegal_iff : (∃ why, decodeOpImm true w = .illegal why) ↔
    (bitsOf w 14 12 = 1 ∧ bitsOf w 31 26 ≠ 0)
      ∨ (bitsOf w 14 12 = 5 ∧ bitsOf w 31 26 ≠ 0 ∧ bitsOf w 31 26 ≠ 16) := by
  have h3 := bitsOf_funct3_lt w
  simp only [decodeOpImm, if_true, decodeOpImmExtra, exists_illegal_ite, exists_illegal, and_true,
    fieldFunct3_eq_iff, fieldFunct6_eq_iff, BitVec.toNat_ofNat]
  by_cases h1 : bitsOf w 14 12 = 1
  · simp [h1]
  · by_cases h5 : bitsOf w 14 12 = 5
    · simp [h5]
    · simp only [h1, h5, false_and, or_false, iff_false]
      omega

theorem decodeOp_illegal_iff : (∃ why, decodeOp w = .illegal why) ↔
    ¬ (bitsOf w 31 25 = 0
        ∧ (bitsOf w 14 12 = 0 ∨ bitsOf w 14 12 = 4 ∨ bitsOf w 14 12 = 6 ∨ bitsOf w 14 12 = 7))
      ∧ ¬ (bitsOf w 31 25 = 32 ∧ bitsOf w 14 12 = 0) := by
  simp only [decodeOp, exists_illegal_ite, exists_illegal, and_true, fieldFunct3_eq_iff, fieldFunct7_eq_iff,
    BitVec.toNat_ofNat]
  omega

/-! ## Over all classes -/

/-- R89's list of opcodes, as patterns and as numbers. -/
theorem bitsOf_opcode_not_mem
    (h : fieldOpcode w ∉ [0x37#7, 0x17#7, 0x6F#7, 0x67#7, 0x63#7, 0x03#7, 0x23#7, 0x13#7, 0x33#7, 0x73#7]) :
    bitsOf w 6 0 ∉ [0x37, 0x17, 0x6F, 0x67, 0x63, 0x03, 0x23, 0x13, 0x33, 0x73] := by
  rw [bitsOf_opcode]
  simpa [← BitVec.toNat_inj] using h

end

/-- In each class of R89 only that class's part of R197's list can hold, and it says that the class's tests
fail. -/
theorem decode_illegal_iff (extra : Bool) (w : InstrWord) :
    (∃ why, decode extra w = .illegal why) ↔ IllegalWord extra w := by
  rcases opcode_cases w with
    rfl | h | h | h | h | h | h | h | h | h | h | ⟨hw, h⟩
  · simp [decode_zero, IllegalWord]
  · rw [decode_lui extra h, IllegalWord, bitsOf_opcode, h]
    simp
  · rw [decode_auipc extra h, IllegalWord, bitsOf_opcode, h]
    simp
  · rw [decode_jal extra h, IllegalWord, bitsOf_opcode, h]
    simp
  · have hw := ne_zero_of_fieldOpcode h (by decide)
    rw [decode_jalr extra h, exists_illegal_ite, fieldFunct3_eq_iff, IllegalWord, bitsOf_opcode, h]
    simp [hw]
  · have hw := ne_zero_of_fieldOpcode h (by decide)
    rw [decode_branch extra h, decodeBranch_illegal_iff, IllegalWord, bitsOf_opcode, h]
    simp [hw]
  · have hw := ne_zero_of_fieldOpcode h (by decide)
    rw [decode_load extra h, decodeLoad_illegal_iff, IllegalWord, bitsOf_opcode, h]
    simp [hw]
  · have hw := ne_zero_of_fieldOpcode h (by decide)
    rw [decode_store extra h, decodeStore_illegal_iff, IllegalWord, bitsOf_opcode, h]
    simp [hw]
  · have hw := ne_zero_of_fieldOpcode h (by decide)
    rw [decode_opImm extra h, IllegalWord, bitsOf_opcode, h]
    cases extra with
    | false => simp [decodeOpImm_false_illegal_iff, hw]
    | true => simp [decodeOpImm_true_illegal_iff, hw]
  · have hw := ne_zero_of_fieldOpcode h (by decide)
    rw [decode_op extra h, decodeOp_illegal_iff, IllegalWord, bitsOf_opcode, h]
    simp [hw]
  · rw [decode_system extra h, IllegalWord, bitsOf_opcode, h]
    simp
  · rw [decode_other extra hw h]
    exact ⟨fun _ => ⟨hw, .inl (bitsOf_opcode_not_mem w h)⟩, fun _ => exists_illegal _⟩

/-- A step that fetches an illegal word (R197, R123). -/
theorem step_illegalWord {s : State} {w : InstrWord} (hready : ReadyToFetch s) (hfetch : fetch32 s s.pc = .ok w)
    (hw : IllegalWord s.cfg.opimmExtra w) : step s = .next (s.raise (.illegalInstruction s.pc w)) := by
  obtain ⟨why, hd⟩ := (decode_illegal_iff s.cfg.opimmExtra w).2 hw
  exact step_illegal hready hfetch hd

/-- Settles O18: the decoder's answer class by class, and the step that raises the fault of the decode. -/
theorem illegalWordsAreExactlyListed : Obligations.IllegalWordsAreExactlyListed := by
  unfold Obligations.IllegalWordsAreExactlyListed
  refine ⟨decode_illegal_iff, fun s w hready hfetch hw => ?_⟩
  rw [step_illegalWord hready hfetch hw]
  exact raise_ends s _

end Sys2Proof.Machine

/-! # The tests of a step (40_sequencer.md R112 to R116, 60_exceptions.md R210) -/

namespace Sys2Proof.Machine

section
variable {s : State}

theorem step_misaligned (hready : ReadyToFetch s) (h : s.pc.toNat % 4 ≠ 0) :
    EndsRun (step s) s (.fault (.fetchMisaligned s.pc)) := by
  rcases fetch32_cases s s.pc with ⟨-, hfetch⟩ | ⟨haligned, -⟩ | ⟨haligned, -⟩
  · rw [step_fetch_error hready hfetch]
    exact raise_ends s _
  · exact absurd haligned h
  · exact absurd haligned h

theorem step_outOfRange (hready : ReadyToFetch s) (haligned : s.pc.toNat % 4 = 0) (h : ¬ InWindow s s.pc 4) :
    EndsRun (step s) s (.fault (.fetchOutOfRange s.pc)) := by
  rcases fetch32_cases s s.pc with ⟨hmis, -⟩ | ⟨-, -, hfetch⟩ | ⟨-, hin, -⟩
  · exact absurd haligned hmis
  · rw [step_fetch_error hready hfetch]
    exact raise_ends s _
  · exact absurd hin h

/-- The fetch of R55 where it succeeds, its word as the sum that R53 prints. -/
theorem fetch32_eq_leValue {addr : Word} (haligned : addr.toNat % 4 = 0) (hin : InWindow s addr 4) :
    fetch32 s addr = .ok (BitVec.ofNat 32 (leValue s.mem addr.toNat 4)) :=
  fetch32_ok_iff.2 ⟨haligned, hin, by rw [Memory.readLE_eq_leValue]⟩

end

/-- Settles O19: the three answers of the fetch, each with the step it makes. -/
theorem fetchChecksPc : Obligations.FetchChecksPc := by
  unfold Obligations.FetchChecksPc
  intro s hready
  exact ⟨step_misaligned hready, step_outOfRange hready, fetch32_eq_leValue⟩

theorem step_budget {s : State} (h : s.status = .running) (hb : s.cfg.maxSteps ≤ s.steps) :
    EndsRun (step s) s (.fault .stepBudgetExhausted) := by
  rw [step_done (beginStep_budget h hb)]
  exact raise_ends s _

theorem step_haltAddr {s : State} (h : s.status = .running) (hb : s.steps < s.cfg.maxSteps)
    (ha : s.cfg.haltAddr = some s.pc) : EndsRun (step s) s .haltAddr := by
  rw [step_done (beginStep_haltAddr h hb ha)]
  exact stop_ends s _

/-- A fetched zero word is HALT (R116). -/
theorem step_zero {s : State} (hready : ReadyToFetch s) (hfetch : fetch32 s s.pc = .ok 0#32) :
    EndsRun (step s) s .haltZero := by
  rw [step_eq_exec hready hfetch (decode_zero s.cfg.opimmExtra)]
  exact exec_halt_ends s

/-- A word that is not illegal is an instruction. -/
theorem exists_instr_of_not_illegalWord {extra : Bool} {w : InstrWord} (h : ¬ IllegalWord extra w) :
    ∃ i, decode extra w = .instr i := by
  cases hd : decode extra w with
  | instr i => exact ⟨i, rfl⟩
  | illegal why => exact absurd ((decode_illegal_iff extra w).1 ⟨why, hd⟩) h

/-- Settles O20: each test in its place, those before it having failed. -/
theorem stepTestsInOrder : Obligations.StepTestsInOrder := by
  unfold Obligations.StepTestsInOrder
  intro s hrun
  refine ⟨step_budget hrun, step_haltAddr hrun, fun hb ha => ?_⟩
  have hready : ReadyToFetch s := ⟨hrun, hb, ha⟩
  refine ⟨step_misaligned hready, step_outOfRange hready, fun w hfetch => ⟨?_, fun _ hw => ?_, fun _ hw => ?_⟩⟩
  · rintro rfl
    exact step_zero hready hfetch
  · rw [step_illegalWord hready hfetch hw]
    exact raise_ends s _
  · obtain ⟨i, hd⟩ := exists_instr_of_not_illegalWord hw
    exact ⟨i, hd, step_eq_exec hready hfetch hd⟩

/-- The four bytes of memory that a fetch puts together, put together as the byte decoder does (R56, R80). -/
theorem append_read_eq_readLE (m : Memory) (a : Nat) :
    (m.read (a + 3) ++ m.read (a + 2) ++ m.read (a + 1) ++ m.read a : InstrWord)
      = BitVec.ofNat 32 (m.readLE a 4) := by
  have hsum : m.readLE a 4 = (m.read a).toNat + 256 * ((m.read (a + 1)).toNat
      + 256 * ((m.read (a + 2)).toNat + 256 * ((m.read (a + 3)).toNat + 256 * 0))) := rfl
  have h0 := (m.read a).isLt
  have h1 := (m.read (a + 1)).isLt
  have h2 := (m.read (a + 2)).isLt
  have h3 := (m.read (a + 3)).isLt
  refine BitVec.eq_of_toNat_eq ?_
  rw [hsum]
  simp only [toNat_append_eq, BitVec.toNat_ofNat]
  omega

/-- Settles O21: the four bytes at the pc are the fetched word, low byte first. -/
theorem stepRunsDecodedInstruction : Obligations.StepRunsDecodedInstruction := by
  unfold Obligations.StepRunsDecodedInstruction
  intro s i hready haligned hin hbytes
  have hfetch : fetch32 s s.pc = .ok (BitVec.ofNat 32 (s.mem.readLE s.pc.toNat 4)) :=
    fetch32_ok_iff.2 ⟨haligned, hin, rfl⟩
  refine step_eq_exec hready hfetch ?_
  rw [← append_read_eq_readLE]
  exact congrArg Prod.fst hbytes

/-- SYSTEM records its encoding, which is SYSTEM's opcode under the other bits of the word (R196). -/
theorem exec_system_ends (rest : BitVec 25) (s : State) :
    EndsRun (exec (.system rest) s) s (.fault (.unsupported s.pc (rest ++ 0x73#7))) :=
  raise_ends s _

/-- Settles O17: the opcode alone decodes to SYSTEM, whose meaning records the encoding, which is the word. -/
theorem systemWordsAreUnsupported : Obligations.SystemWordsAreUnsupported := by
  unfold Obligations.SystemWordsAreUnsupported
  refine ⟨exec_system_ends, fun s w hready hfetch hop => ?_⟩
  have hopcode : fieldOpcode w = 0x73#7 := BitVec.eq_of_toNat_eq ((bitsOf_opcode w).symm.trans hop)
  have hends := exec_system_ends (fieldRest w) s
  rwa [system_eq hopcode, ← step_eq_exec hready hfetch (decode_system s.cfg.opimmExtra hopcode)] at hends

end Sys2Proof.Machine

/-! # What a step leaves (40_sequencer.md R121 to R126) -/

namespace Sys2Proof.Machine

theorem exec_next (i : Instr) (s : State) : ∃ t, exec i s = .next t := by
  have h := exec_form i s
  generalize exec i s = o at h
  cases h <;> exact ⟨_, rfl⟩

/-- Settles O22: the first half of a step is over in a state, or hands an instruction to a meaning, which answers
a next state. -/
theorem everyStepAnswersNext : Obligations.EveryStepAnswersNext := by
  unfold Obligations.EveryStepAnswersNext
  intro s
  rw [step]
  cases beginStep s with
  | done t => exact ⟨t, rfl⟩
  | run i => exact exec_next i s

/-- A meaning either retires, or ends the run (R121, R123). -/
theorem exec_completes_or_ends {i : Instr} {s t : State} (h : exec i s = .next t) :
    (t.status = s.status ∧ t.steps = s.steps + 1 ∧ t.cfg = s.cfg) ∨
    (t.status ≠ .running ∧ t = { s with status := t.status }) := by
  have hform : Form i s (.next t) := h ▸ exec_form i s
  cases hform with
  | ends st hst => exact .inr ⟨hst, rfl⟩
  | writes => exact .inl ⟨rfl, rfl, rfl⟩
  | stores => exact .inl ⟨rfl, rfl, rfl⟩
  | moves => exact .inl ⟨rfl, rfl, rfl⟩

/-- A step stays where the run is over, or ends the run before the meaning, or is an instruction's meaning. -/
theorem step_stops_or_execs {s t : State} (h : step s = .next t) :
    (s.status ≠ .running ∧ t = s) ∨ (∃ st, st ≠ .running ∧ t = s.stop st) ∨
    (ReadyToFetch s ∧ ∃ w i, fetch32 s s.pc = .ok w ∧ decode s.cfg.opimmExtra w = .instr i
      ∧ exec i s = .next t) := by
  rcases step_cases h with
    hover | ⟨-, -, rfl⟩ | ⟨-, -, -, rfl⟩ | ⟨-, k, -, rfl⟩ | ⟨-, w, r, -, -, rfl⟩ | hexec
  · exact .inl hover
  · exact .inr (.inl ⟨.fault _, by simp, rfl⟩)
  · exact .inr (.inl ⟨.haltAddr, by simp, rfl⟩)
  · exact .inr (.inl ⟨.fault _, by simp, rfl⟩)
  · exact .inr (.inl ⟨.fault _, by simp, rfl⟩)
  · exact .inr (.inr hexec)

/-- What a step from a running state answers; one that completes had budget left (R113). -/
theorem step_completes_or_ends {s t : State} (hrun : s.status = .running) (h : step s = .next t) :
    (s.steps < s.cfg.maxSteps ∧ t.status = .running ∧ t.steps = s.steps + 1 ∧ t.cfg = s.cfg) ∨
    (t.status ≠ .running ∧ t = { s with status := t.status }) := by
  rcases step_stops_or_execs h with ⟨hover, -⟩ | ⟨st, hst, rfl⟩ | ⟨⟨-, hbudget, -⟩, w, i, -, -, hexec⟩
  · exact absurd hrun hover
  · exact .inr ⟨hst, rfl⟩
  · refine (exec_completes_or_ends hexec).imp_left ?_
    rintro ⟨hstatus, hsteps, hcfg⟩
    exact ⟨hbudget, hstatus.trans hrun, hsteps, hcfg⟩

/-- Settles O24: every test before the meaning ends the run, and a meaning retires or ends it. -/
theorem stepCompletesOrOnlyEnds : Obligations.StepCompletesOrOnlyEnds := by
  unfold Obligations.StepCompletesOrOnlyEnds
  intro s t hrun h
  exact (step_completes_or_ends hrun h).imp_left And.right

/-- Steps for the budget that is left, and one more, end the run: each step that completes uses budget up. -/
theorem run_ends (n : Nat) (s : State) (hn : s.cfg.maxSteps - s.steps ≤ n) :
    ∃ t : State, Sys2Proof.core.run (n + 1) s = .next t ∧ t.status ≠ .running
      ∧ t.steps ≤ max s.steps s.cfg.maxSteps := by
  induction n using Nat.strong_induction_on generalizing s with
  | _ n ih =>
    by_cases hrun : s.status = .running
    · obtain ⟨t, hstep⟩ := everyStepAnswersNext s
      rw [run_succ n hstep]
      rcases step_completes_or_ends hrun hstep with ⟨hb, -, hsteps, hcfg⟩ | ⟨hterm, ht⟩
      · obtain ⟨m, rfl⟩ : ∃ m, n = m + 1 := ⟨n - 1, by omega⟩
        obtain ⟨u, hu, hterm, hle⟩ := ih m (Nat.lt_succ_self m) t (by rw [hcfg, hsteps]; omega)
        rw [hcfg, hsteps] at hle
        exact ⟨u, hu, hterm, by omega⟩
      · have hsteps : t.steps = s.steps := by rw [ht]
        exact ⟨t, run_terminal hterm n, hterm, hsteps.le.trans (le_max_left _ _)⟩
    · exact ⟨s, run_terminal hrun _, hrun, le_max_left _ _⟩

/-- Settles O25, by induction on the budget that is left. -/
theorem everyRunEndsWithinBudget : Obligations.EveryRunEndsWithinBudget := by
  unfold Obligations.EveryRunEndsWithinBudget
  intro s
  exact run_ends _ s le_rfl

end Sys2Proof.Machine

/-! # The invariant (10_state.md R23, 20_memory.md R50, 40_sequencer.md R113, 60_exceptions.md R207) -/

namespace Sys2Proof.Machine

section
variable {s : State}

/-- While the run goes on the status records nothing. -/
theorem recordTrue_of_running (h : s.status = .running) : RecordTrue s := by
  simp [RecordTrue, h]

/-- Ending the run keeps the invariant when the status it writes is true of the state. -/
theorem inv_stop {st : Status} (h : s.Inv) (hst : RecordTrue (s.stop st)) : (s.stop st).Inv := by
  obtain ⟨hzero, hwf, hin, hsteps, -⟩ := h
  exact ⟨hzero, hwf, hin, hsteps, hst⟩

/-- A fault of the fetch records its cause (R115). -/
theorem recordTrue_fetch_error {k : Fault} (h : fetch32 s s.pc = .error k) : RecordTrue (s.raise k) := by
  rcases fetch32_cases s s.pc with ⟨hmis, hk⟩ | ⟨haligned, hout, hk⟩ | ⟨-, -, hok⟩
  · obtain rfl := Except.error.inj (h.symm.trans hk)
    exact ⟨rfl, hmis⟩
  · obtain rfl := Except.error.inj (h.symm.trans hk)
    exact ⟨rfl, haligned, hout⟩
  · rw [h] at hok
    cases hok

/-- What ends a run from inside an instruction records its cause: the fetched word is the encoding of the
instruction, so HALT's is the zero word and SYSTEM's has SYSTEM's opcode (R195, R196, R53, R54). -/
theorem recordTrue_of_endsBecause {w : InstrWord} {i : Instr} {st : Status} (hfetch : fetch32 s s.pc = .ok w)
    (hd : decode s.cfg.opimmExtra w = .instr i) (h : EndsBecause i s st) : RecordTrue (s.stop st) := by
  obtain ⟨rfl, -⟩ := reads_of_decode hd
  match st, h with
  | .haltZero, hi =>
    obtain rfl : i = .halt := hi
    exact hfetch
  | .fault (.unsupported p v), ⟨hp, hv, rest, hi⟩ =>
    subst hi hv
    exact ⟨hp, hfetch, (bitsOf_opcode _).trans (congrArg BitVec.toNat (fieldOpcode_system rest _))⟩
  | .fault (.loadMisaligned _ _), hcause => exact hcause
  | .fault (.loadOutOfRange _ _), hcause => exact hcause
  | .fault (.storeMisaligned _ _), hcause => exact hcause
  | .fault (.storeOutOfRange _ _), hcause => exact hcause

/-- Writing bytes that lie in the window keeps memory in the window. -/
theorem memInWindow_writeLE {a v : Word} {n : Nat} (h : MemInWindow s.cfg s.mem) (hin : InWindow s a n) :
    MemInWindow s.cfg (s.mem.writeLE a.toNat n v) := by
  intro cell hcell
  obtain ⟨hlow, hhigh⟩ := hin
  rcases Memory.mem_writeLE hcell with hnew | hold
  · omega
  · exact h cell hold

/-- An instruction that a step has fetched keeps the invariant. -/
theorem exec_keeps_inv {t : State} {w : InstrWord} {i : Instr} (h : s.Inv) (hready : ReadyToFetch s)
    (hfetch : fetch32 s s.pc = .ok w) (hd : decode s.cfg.opimmExtra w = .instr i)
    (hexec : exec i s = .next t) : t.Inv := by
  have hform : Form i s (.next t) := hexec ▸ exec_form i s
  obtain ⟨hrun, hbudget, -⟩ := hready
  obtain ⟨hzero, hwf, hin, hsteps, htrue⟩ := h
  cases hform with
  | ends st hst why =>
    exact inv_stop ⟨hzero, hwf, hin, hsteps, htrue⟩ (recordTrue_of_endsBecause hfetch hd why)
  | writes rd v npc =>
    exact ⟨retireReg_regs s rd v npc 0, hwf, hin, hbudget, recordTrue_of_running hrun⟩
  | stores a n v hi haligned hwindow =>
    exact ⟨retire_regs _ _ 0, Memory.writeLE_wf hwf _ _ _, memInWindow_writeLE hin hwindow, hbudget,
      recordTrue_of_running hrun⟩
  | moves npc =>
    exact ⟨retire_regs s npc 0, hwf, hin, hbudget, recordTrue_of_running hrun⟩

end

/-- Settles O37, along what a step can have done: it stayed in a terminal state, ended the run at one of the
tests before the meaning, which then holds of the state, or ran an instruction. -/
theorem stepKeepsInvariant : Obligations.StepKeepsInvariant := by
  unfold Obligations.StepKeepsInvariant
  intro s t h hstep
  rcases step_cases hstep with
    ⟨-, rfl⟩ | ⟨-, hbudget, rfl⟩ | ⟨-, -, hhalt, rfl⟩ | ⟨-, k, hfetch, rfl⟩ | ⟨-, w, r, hfetch, hd, rfl⟩
      | ⟨hready, w, i, hfetch, hd, hexec⟩
  · exact h
  · exact inv_stop h hbudget
  · exact inv_stop h hhalt
  · exact inv_stop h (recordTrue_fetch_error hfetch)
  · exact inv_stop h ⟨rfl, hfetch, (decode_illegal_iff _ w).1 ⟨r, hd⟩⟩
  · exact exec_keeps_inv h hready hfetch hd hexec

/-! ## Reset (70_reset_and_hazards.md R235) -/

/-- The registers after reset: all 0 but register 2. -/
theorem boot_regs (c : Config) (b : Boot) (r : Reg) :
    (State.boot c b).regs[r] = if r = 2 then b.spInit else 0#64 := by
  simp only [State.boot, Fin.getElem_fin, Vector.getElem_set, Vector.getElem_replicate, Fin.ext_iff, eq_comm]
  rfl

/-- Settles O34: reset writes SP_INIT to register 2 over 32 zeros, and every other part as it is given. -/
theorem resetStateForAnyParameters : Obligations.ResetStateForAnyParameters := by
  unfold Obligations.ResetStateForAnyParameters
  intro c b
  exact ⟨boot_regs c b, rfl, fun _ => rfl, rfl, rfl, rfl⟩

theorem boot_inv {c : Config} {b : Boot} (h : BootValid c b) : (State.boot c b).Inv := by
  obtain ⟨hwf, hin⟩ := h
  exact ⟨boot_regs c b 0, hwf, hin, Nat.zero_le _, recordTrue_of_running rfl⟩

theorem bootValid_default (c : Config) : BootValid c Boot.default :=
  ⟨Memory.wf_nil, nofun⟩

/-- Settles O38: reset counts no step and writes no register 0, and the rest of the invariant is asked of the
image; the empty image has it. -/
theorem resetHasInvariant : Obligations.ResetHasInvariant := by
  unfold Obligations.ResetHasInvariant
  exact ⟨fun _ _ => boot_inv, boot_inv (bootValid_default _)⟩

/-- Settles O35. With the default SP_INIT, which is 0, no register differs from the others. -/
theorem resetHasDefaultParameters : Obligations.ResetHasDefaultParameters := by
  unfold Obligations.ResetHasDefaultParameters
  have hregs : ∀ r : Reg, State.reset.regs[r] = 0#64 := fun r =>
    (boot_regs Config.default Boot.default r).trans (ite_self _)
  exact ⟨rfl, rfl, rfl, rfl, rfl, rfl, hregs, fun _ => rfl, rfl, rfl⟩

end Sys2Proof.Machine

/-! # JALR (42_jumps.md R136) -/

namespace Sys2Proof.Machine

theorem exec_jalr (rd rs1 : Reg) (imm : BitVec 12) (s : State) :
    exec (.jalr rd rs1 imm) s = .next (s.retireReg rd s.pcPlus4 (jalrTarget s rs1 imm)) := rfl

/-- Settles O4: JALR retires with the link `pc + 4`, and its target is computed from the state before the link
is written. -/
theorem jalrLinksAndJumps : Obligations.JalrLinksAndJumps := by
  unfold Obligations.JalrLinksAndJumps
  intro rd rs1 imm s
  rw [exec_jalr]
  exact retireReg_writes s rd s.pcPlus4 (jalrTarget s rs1 imm)

end Sys2Proof.Machine

/-! # The loads and stores that fault (20_memory.md R53, R54) -/

namespace Sys2Proof.Machine

/-- A load whose `MemRead` faults ends the run with that fault (R150). -/
theorem loadWith_ends {w : Width} {ext : Word → Word} {rd rs1 : Reg} {imm : BitVec 12} {s : State} {k : Fault}
    (h : memRead s (loadAddr s rs1 imm) w = .error k) :
    EndsRun (.next (loadWith w ext rd rs1 imm s)) s (.fault k) := by
  rw [loadWith, h]
  exact raise_ends s k

/-- R53 for an instruction whose meaning is `loadWith` of a width. -/
theorem loadFaults_of_loadWith {mk : Reg → Reg → BitVec 12 → Instr} {w : Width} {ext : Word → Word}
    (hexec : ∀ rd rs1 imm s, exec (mk rd rs1 imm) s = .next (loadWith w ext rd rs1 imm s)) :
    LoadFaults mk w w.bytes := by
  intro rd rs1 imm s ea
  rw [hexec]
  rcases memRead_cases s (loadAddr s rs1 imm) w with ⟨hmis, h⟩ | ⟨haligned, hout, h⟩ | ⟨haligned, hin, -⟩
  · exact ⟨fun _ => loadWith_ends h, fun h0 => absurd h0 hmis⟩
  · exact ⟨fun hmis => absurd haligned hmis, fun _ _ => loadWith_ends h⟩
  · exact ⟨fun hmis => absurd haligned hmis, fun _ hout => absurd hin hout⟩

/-- Settles O10: each load is `loadWith` of its width, whose `MemRead` makes both checks. -/
theorem loadsFaultInOrder : Obligations.LoadsFaultInOrder := by
  unfold Obligations.LoadsFaultInOrder
  exact ⟨loadFaults_of_loadWith (w := .byte) exec_lb, loadFaults_of_loadWith (w := .half) exec_lh,
    loadFaults_of_loadWith (w := .word) exec_lw, loadFaults_of_loadWith (w := .double) exec_ld,
    loadFaults_of_loadWith (w := .byte) exec_lbu, loadFaults_of_loadWith (w := .half) exec_lhu,
    loadFaults_of_loadWith (w := .word) exec_lwu⟩

/-- A store whose `MemWrite` faults ends the run with that fault (R160). -/
theorem storeWith_ends {w : Width} {rs1 rs2 : Reg} {imm : BitVec 12} {s : State} {k : Fault}
    (h : memWrite s (storeAddr s rs1 imm) w (s.readReg rs2) = .error k) :
    EndsRun (.next (storeWith w rs1 rs2 imm s)) s (.fault k) := by
  rw [storeWith, h]
  exact raise_ends s k

/-- R54 for an instruction whose meaning is `storeWith` of a width. -/
theorem storeFaults_of_storeWith {mk : Reg → Reg → BitVec 12 → Instr} {w : Width}
    (hexec : ∀ rs1 rs2 imm s, exec (mk rs1 rs2 imm) s = .next (storeWith w rs1 rs2 imm s)) :
    StoreFaults mk w w.bytes := by
  intro rs1 rs2 imm s ea
  rw [hexec]
  rcases memWrite_cases s (storeAddr s rs1 imm) w (s.readReg rs2) with
    ⟨hmis, h⟩ | ⟨haligned, hout, h⟩ | ⟨haligned, hin, -⟩
  · exact ⟨fun _ => storeWith_ends h, fun h0 => absurd h0 hmis⟩
  · exact ⟨fun hmis => absurd haligned hmis, fun _ _ => storeWith_ends h⟩
  · exact ⟨fun hmis => absurd haligned hmis, fun _ hout => absurd hin hout⟩

/-- Settles O12: each store is `storeWith` of its width, whose `MemWrite` makes both checks. -/
theorem storesFaultInOrder : Obligations.StoresFaultInOrder := by
  unfold Obligations.StoresFaultInOrder
  exact ⟨storeFaults_of_storeWith (w := .byte) exec_sb, storeFaults_of_storeWith (w := .half) exec_sh,
    storeFaults_of_storeWith (w := .word) exec_sw, storeFaults_of_storeWith (w := .double) exec_sd⟩

end Sys2Proof.Machine

/-! # The optional register-immediate operations (46_op_imm.md R176 to R180) -/

namespace Sys2Proof.Machine

section
variable (rd rs1 : Reg) (imm : BitVec 12) (shamt : BitVec 6) (s : State)

theorem exec_slti : exec (.slti rd rs1 imm) s
    = .next (opImmWith (fun a b => boolWord (lessSigned a b)) rd rs1 imm s) := rfl

theorem exec_sltiu : exec (.sltiu rd rs1 imm) s
    = .next (opImmWith (fun a b => boolWord (lessUnsigned a b)) rd rs1 imm s) := rfl

theorem exec_slli : exec (.slli rd rs1 shamt) s = .next (shiftImmWith (fun a n => a <<< n) rd rs1 shamt s) := rfl

theorem exec_srli : exec (.srli rd rs1 shamt) s = .next (shiftImmWith (fun a n => a >>> n) rd rs1 shamt s) := rfl

theorem exec_srai :
    exec (.srai rd rs1 shamt) s = .next (shiftImmWith (fun a n => a.sshiftRight n) rd rs1 shamt s) := rfl

end

section
variable (a : Word)

/-- The signed comparison with `imm_i` is the comparison with the immediate as a signed number (R176). -/
theorem boolWord_lessSigned_immI (imm : BitVec 12) :
    boolWord (lessSigned a (immI imm)) = if a.toInt < imm.toInt then 1#64 else 0#64 := by
  rw [boolWord_eq (lessSigned_iff a (immI imm)), immI_toInt]

/-- The unsigned comparison with `imm_i` (R177). -/
theorem boolWord_lessUnsigned_immI (imm : BitVec 12) :
    boolWord (lessUnsigned a (immI imm)) = if a.toNat < (imm.signExtend 64).toNat then 1#64 else 0#64 :=
  boolWord_eq (lessUnsigned_iff a (immI imm))

/-- A left shift multiplies by a power of two, modulo 2^64 (R178). -/
theorem shiftLeft_eq_mul (n : Nat) : a <<< n = BitVec.ofNat 64 (a.toNat * 2 ^ n) := by
  refine BitVec.eq_of_toNat_eq ?_
  rw [BitVec.toNat_shiftLeft, BitVec.toNat_ofNat, Nat.shiftLeft_eq]

/-- A logical right shift divides the unsigned number (R179). -/
theorem ushiftRight_eq_div (n : Nat) : a >>> n = BitVec.ofNat 64 (a.toNat / 2 ^ n) := by
  refine BitVec.eq_of_toNat_eq ?_
  rw [BitVec.toNat_ushiftRight, BitVec.toNat_ofNat, Nat.shiftRight_eq_div_pow,
    Nat.mod_eq_of_lt ((Nat.div_le_self _ _).trans_lt a.isLt)]

/-- An arithmetic right shift divides the signed number, rounding down (R180). -/
theorem sshiftRight_eq_div (n : Nat) : a.sshiftRight n = BitVec.ofInt 64 (a.toInt / 2 ^ n) := by
  rw [← BitVec.ofInt_toInt (x := a.sshiftRight n), BitVec.toInt_sshiftRight, Int.shiftRight_eq_div_pow]
  norm_cast

end

/-- The shifts for an instruction whose meaning is `shiftImmWith` of an operation. -/
theorem computesImm_of_shiftImmWith {mk : Reg → Reg → BitVec 6 → Instr} {op : Word → Nat → Word}
    {f : Word → Nat → Word} (hop : ∀ a n, op a n = f a n)
    (hexec : ∀ rd rs1 shamt s, exec (mk rd rs1 shamt) s = .next (shiftImmWith op rd rs1 shamt s)) :
    ComputesImm mk (fun a shamt => f a shamt.toNat) := by
  obtain rfl : op = f := funext₂ hop
  intro rd rs1 shamt s
  rw [hexec]
  exact shiftImmWith_writes op rd rs1 shamt s

/-- Settles O14: SLTI and SLTIU are `opImmWith` of the two comparisons, SLLI, SRLI and SRAI `shiftImmWith` of the
three shifts, each of which is an operation on numbers. -/
theorem optionalImmediateOperations : Obligations.OptionalImmediateOperations := by
  unfold Obligations.OptionalImmediateOperations
  exact ⟨computesImm_of_opImmWith boolWord_lessSigned_immI exec_slti,
    computesImm_of_opImmWith boolWord_lessUnsigned_immI exec_sltiu,
    computesImm_of_shiftImmWith shiftLeft_eq_mul exec_slli,
    computesImm_of_shiftImmWith ushiftRight_eq_div exec_srli,
    computesImm_of_shiftImmWith sshiftRight_eq_div exec_srai⟩

end Sys2Proof.Machine

/-! # The U-immediate, the printed words and the status codes (30_encoding.md R86, 95_test_vectors.md,
60_exceptions.md R206, R220) -/

namespace Sys2Proof.Machine

/-- The number of the field at bits 31:12 with twelve zeros below it (R86). -/
theorem toNat_fieldImmU_append (w : InstrWord) :
    (fieldImmU w ++ 0#12 : BitVec 32).toNat = bitsOf w 31 12 * 2 ^ 12 := by
  have hfield : bitsOf w 31 12 = (fieldImmU w).toNat := (toNat_extract w 12 20).symm
  rw [toNat_append_eq, hfield, BitVec.toNat_ofNat, Nat.zero_mod, Nat.add_zero]

/-- Settles O40: the sign extension of that 32-bit number, which is also the signed field times 4096. -/
theorem upperImmediateOfWords : Obligations.UpperImmediateOfWords := by
  unfold Obligations.UpperImmediateOfWords
  intro w
  have hfield : IsSignedField 32 (bitsOf w 31 12 * 4096) (immU (fieldImmU w)) :=
    isSignedField_signExtend (by decide) (by decide) (toNat_fieldImmU_append w)
  refine ⟨hfield, ?_⟩
  obtain ⟨hval, -⟩ := hfield
  rw [hval]
  split <;> omega

/-- Settles O45: each word is evaluated. -/
theorem sampleWordsDecode : Obligations.SampleWordsDecode := by
  unfold Obligations.SampleWordsDecode
  decide

/-- Settles O46: the exit status along the constructors of the status, each code by its own equation. -/
theorem statusCodesAndExit : Obligations.StatusCodesAndExit := by
  unfold Obligations.StatusCodesAndExit
  refine ⟨fun st => ?_, fun st => ?_, fun st => ?_, rfl, rfl, rfl, rfl, fun _ => rfl, fun _ => rfl,
    fun _ _ => rfl, fun _ _ => rfl, fun _ _ => rfl, fun _ _ => rfl, fun _ _ => rfl, fun _ _ => rfl⟩
  · cases st <;> simp [Status.exitStatus]
  · cases st <;> simp [Status.exitStatus]
  · cases st <;> simp [Status.exitStatus]

end Sys2Proof.Machine

/-! # What jumps, branches and stores alone can do (10_state.md R28, R29, R37, 42_jumps.md R137) -/

namespace Sys2Proof.Machine

/-- The meaning completes, and an instruction with a destination other than register 0 leaves `pc + 4` there. -/
def CompletesLinking (i : Instr) (s : State) : Prop :=
  ∃ t, exec i s = .next t ∧ t.steps = s.steps + 1 ∧ t.status = s.status ∧
    ∀ rd, i.dest = some rd → rd ≠ 0 → t.regs[rd] = s.pc + 4#64

section
variable {i : Instr} {s : State}

theorem completesLinking_of_writesReg {rd : Reg} {npc : Word} (hd : i.dest = some rd)
    (h : WritesReg (exec i s) s rd (s.pc + 4#64) npc) : CompletesLinking i s := by
  obtain ⟨t, hexec, hregs, -, -, hsteps, hstatus, -⟩ := h
  refine ⟨t, hexec, hsteps, hstatus, fun r hr h0 => ?_⟩
  obtain rfl : rd = r := Option.some.inj (hd.symm.trans hr)
  rw [hregs, if_neg h0, if_pos rfl]

/-- A branch names no destination (R140). -/
theorem completesLinking_of_branchIf {taken : Bool} {off : BitVec 13} (hd : i.dest = none)
    (hexec : exec i s = .next (branchIf taken off s)) : CompletesLinking i s :=
  ⟨_, hexec, rfl, rfl, fun rd hr => by rw [hd] at hr; cases hr⟩

theorem control_completes (h : i.isControl = true) : CompletesLinking i s := by
  cases i with
  | jal rd off => exact completesLinking_of_writesReg rfl (jalLinksAndJumps rd off s)
  | jalr rd rs1 imm => exact completesLinking_of_writesReg rfl (jalrLinksAndJumps rd rs1 imm s)
  | beq rs1 rs2 off => exact completesLinking_of_branchIf rfl (exec_beq rs1 rs2 off s)
  | bne rs1 rs2 off => exact completesLinking_of_branchIf rfl (exec_bne rs1 rs2 off s)
  | blt rs1 rs2 off => exact completesLinking_of_branchIf rfl (exec_blt rs1 rs2 off s)
  | bge rs1 rs2 off => exact completesLinking_of_branchIf rfl (exec_bge rs1 rs2 off s)
  | bltu rs1 rs2 off => exact completesLinking_of_branchIf rfl (exec_bltu rs1 rs2 off s)
  | bgeu rs1 rs2 off => exact completesLinking_of_branchIf rfl (exec_bgeu rs1 rs2 off s)
  | _ => cases h

end

/-- Settles O29: no control instruction checks its target, and the fetch of the next step does. -/
theorem targetCheckedAtNextFetch : Obligations.TargetCheckedAtNextFetch := by
  unfold Obligations.TargetCheckedAtNextFetch
  intro i s hi
  obtain ⟨t, hexec, hsteps, hstatus, hlink⟩ := control_completes (s := s) hi
  exact ⟨t, hexec, hsteps, hstatus, hlink, step_misaligned, step_outOfRange⟩

/-- A meaning that changes memory is a store's (20_memory.md R62). -/
theorem isStore_of_exec_mem_ne {i : Instr} {s t : State} (h : exec i s = .next t) (hm : t.mem ≠ s.mem) :
    i.isStore = true := by
  have hform : Form i s (.next t) := h ▸ exec_form i s
  cases hform with
  | ends => exact absurd rfl hm
  | writes => exact absurd rfl hm
  | stores _ _ _ hi => exact hi
  | moves => exact absurd rfl hm

/-- Settles O30: a step that is over before the meaning leaves memory as it was. -/
theorem onlyStoresChangeMemory : Obligations.OnlyStoresChangeMemory := by
  unfold Obligations.OnlyStoresChangeMemory
  intro s t hstep hm
  rcases step_stops_or_execs hstep with ⟨-, rfl⟩ | ⟨st, -, rfl⟩ | ⟨-, w, i, hfetch, hd, hexec⟩
  · exact absurd rfl hm
  · exact absurd rfl hm
  · exact ⟨w, i, hfetch, hd, isStore_of_exec_mem_ne hexec hm⟩

/-! ## The pc stays even (R29) -/

/-- A next state that the answer holds has an even pc. -/
def LeavesPcEven (o : Answer) : Prop := ∀ t, o = .next t → t.pc.toNat % 2 = 0

theorem leavesPcEven_next {t : State} (h : t.pc.toNat % 2 = 0) : LeavesPcEven (.next t) := by
  rintro _ ⟨⟩
  exact h

/-- JALR clears bit 0 of its target (R136). -/
theorem even_jalrTarget (s : State) (rs1 : Reg) (imm : BitVec 12) : (jalrTarget s rs1 imm).toNat % 2 = 0 := by
  rw [toNat_even_iff, jalrTarget, BitVec.getLsbD_and]
  exact Bool.and_false _

section
variable {s : State} (hpc : s.pc.toNat % 2 = 0)
include hpc

theorem even_pcPlus4 : s.pcPlus4.toNat % 2 = 0 := by
  rw [State.pcPlus4, BitVec.toNat_add, BitVec.toNat_ofNat]
  omega

/-- An instruction other than a jump or a branch that retires. -/
theorem leavesPcEven_plus4 {t : State} (h : t.pc = s.pcPlus4) : LeavesPcEven (.next t) :=
  leavesPcEven_next (h ▸ even_pcPlus4 hpc)

theorem leavesPcEven_branchIf {taken : Bool} {off : BitVec 13} (hoff : evenOffset off = true) :
    LeavesPcEven (.next (branchIf taken off s)) := by
  refine leavesPcEven_next ?_
  rw [branchIf, retire_pc]
  split
  · exact even_pc_immB hpc hoff
  · exact even_pcPlus4 hpc

theorem leavesPcEven_loadWith {w : Width} {ext : Word → Word} {rd rs1 : Reg} {imm : BitVec 12} :
    LeavesPcEven (.next (loadWith w ext rd rs1 imm s)) := by
  rcases loadWith_cases w ext rd rs1 imm s with ⟨k, -, h⟩ | ⟨v, -, h⟩ <;> rw [h]
  · exact leavesPcEven_next hpc
  · exact leavesPcEven_plus4 hpc rfl

theorem leavesPcEven_storeWith {w : Width} {rs1 rs2 : Reg} {imm : BitVec 12} :
    LeavesPcEven (.next (storeWith w rs1 rs2 imm s)) := by
  rcases storeWith_cases w rs1 rs2 imm s with ⟨k, -, h⟩ | ⟨t, -, h⟩ <;> rw [h]
  · exact leavesPcEven_next hpc
  · exact leavesPcEven_plus4 hpc rfl

theorem exec_leavesPcEven {i : Instr} (hwf : i.wellFormed = true) : LeavesPcEven (exec i s) := by
  cases i with
  | lui => exact leavesPcEven_plus4 hpc rfl
  | auipc => exact leavesPcEven_plus4 hpc rfl
  | jal => exact leavesPcEven_next (even_pc_immJ hpc hwf)
  | jalr => exact leavesPcEven_next (even_jalrTarget s _ _)
  | beq => exact leavesPcEven_branchIf hpc hwf
  | bne => exact leavesPcEven_branchIf hpc hwf
  | blt => exact leavesPcEven_branchIf hpc hwf
  | bge => exact leavesPcEven_branchIf hpc hwf
  | bltu => exact leavesPcEven_branchIf hpc hwf
  | bgeu => exact leavesPcEven_branchIf hpc hwf
  | lb => exact leavesPcEven_loadWith hpc
  | lh => exact leavesPcEven_loadWith hpc
  | lw => exact leavesPcEven_loadWith hpc
  | ld => exact leavesPcEven_loadWith hpc
  | lbu => exact leavesPcEven_loadWith hpc
  | lhu => exact leavesPcEven_loadWith hpc
  | lwu => exact leavesPcEven_loadWith hpc
  | sb => exact leavesPcEven_storeWith hpc
  | sh => exact leavesPcEven_storeWith hpc
  | sw => exact leavesPcEven_storeWith hpc
  | sd => exact leavesPcEven_storeWith hpc
  | addi => exact leavesPcEven_plus4 hpc rfl
  | xori => exact leavesPcEven_plus4 hpc rfl
  | ori => exact leavesPcEven_plus4 hpc rfl
  | andi => exact leavesPcEven_plus4 hpc rfl
  | add => exact leavesPcEven_plus4 hpc rfl
  | sub => exact leavesPcEven_plus4 hpc rfl
  | xor => exact leavesPcEven_plus4 hpc rfl
  | or => exact leavesPcEven_plus4 hpc rfl
  | and => exact leavesPcEven_plus4 hpc rfl
  | halt => exact leavesPcEven_next hpc
  | system => exact leavesPcEven_next hpc
  | slti => exact leavesPcEven_plus4 hpc rfl
  | sltiu => exact leavesPcEven_plus4 hpc rfl
  | slli => exact leavesPcEven_plus4 hpc rfl
  | srli => exact leavesPcEven_plus4 hpc rfl
  | srai => exact leavesPcEven_plus4 hpc rfl

end

/-- Settles O28: the pc was a multiple of 4 to be fetched from, an offset that is decoded is even, and JALR
clears bit 0. -/
theorem writtenPcIsEven : Obligations.WrittenPcIsEven := by
  unfold Obligations.WrittenPcIsEven
  intro s t hrun hstep hstatus
  rcases step_stops_or_execs hstep with ⟨hover, -⟩ | ⟨st, hst, rfl⟩ | ⟨-, w, i, hfetch, hd, hexec⟩
  · exact absurd hrun hover
  · exact absurd hstatus hst
  · obtain ⟨haligned, -⟩ := fetch32_ok_iff.1 hfetch
    obtain ⟨-, hwf, -⟩ := reads_of_decode hd
    exact exec_leavesPcEven (by omega) hwf t hexec

end Sys2Proof.Machine

/-! # The registers an instruction names (10_state.md R26) -/

namespace Sys2Proof.Machine

/-- The state with another register file. -/
abbrev withRegs (s : State) (regs' : Vector Word 32) : State := { s with regs := regs' }

/-- Two answers, from states that differ in their registers alone: the next states differ in their registers
alone, and agree in the instruction's destination when the step completes. -/
def SameButRegs (i : Instr) (s : State) (o o' : Answer) : Prop :=
  ∀ t t', o = .next t → o' = .next t' →
    t' = { t with regs := t'.regs } ∧
    (t.steps = s.steps + 1 → ∀ rd, i.dest = some rd → t'.regs[rd] = t.regs[rd])

section
variable {i : Instr} {s : State} {regs' : Vector Word 32}

theorem sameButRegs_stop (st : Status) :
    SameButRegs i s (.next (s.stop st)) (.next ((withRegs s regs').stop st)) := by
  rintro _ _ ⟨⟩ ⟨⟩
  exact ⟨rfl, fun h => absurd h (Nat.lt_succ_self _).ne⟩

theorem sameButRegs_retire {u : State} {npc npc' : Word} (hd : i.dest = none) (hn : npc' = npc) :
    SameButRegs i s (.next (u.retire npc)) (.next ((withRegs u regs').retire npc')) := by
  rintro _ _ ⟨⟩ ⟨⟩
  subst hn
  exact ⟨rfl, fun _ rd hr => by rw [hd] at hr; cases hr⟩

theorem sameButRegs_retireReg {rd : Reg} {v v' npc npc' : Word} (hd : i.dest = some rd) (hv : v' = v)
    (hn : npc' = npc) : SameButRegs i s (.next (s.retireReg rd v npc))
      (.next ((withRegs s regs').retireReg rd v' npc')) := by
  rintro _ _ ⟨⟩ ⟨⟩
  subst hv hn
  refine ⟨rfl, fun _ r hr => ?_⟩
  obtain rfl : rd = r := Option.some.inj (hd.symm.trans hr)
  simp only [retireReg_regs, if_true]

/-- A load reads its base register alone. -/
theorem sameButRegs_loadWith (w : Width) (ext : Word → Word) {rd rs1 : Reg} (imm : BitVec 12)
    (hd : i.dest = some rd) (h1 : (withRegs s regs').readReg rs1 = s.readReg rs1) :
    SameButRegs i s (.next (loadWith w ext rd rs1 imm s))
      (.next (loadWith w ext rd rs1 imm (withRegs s regs'))) := by
  have haddr : loadAddr (withRegs s regs') rs1 imm = loadAddr s rs1 imm := congrArg (· + immI imm) h1
  have hread : memRead (withRegs s regs') (loadAddr s rs1 imm) w = memRead s (loadAddr s rs1 imm) w := rfl
  rw [loadWith, loadWith, haddr, hread]
  cases memRead s (loadAddr s rs1 imm) w with
  | error k => exact sameButRegs_stop (.fault k)
  | ok v => exact sameButRegs_retireReg hd rfl rfl

/-- `MemWrite` neither reads nor writes a register. -/
theorem memWrite_regs (s : State) (regs' : Vector Word 32) (a : Word) (w : Width) (v : Word) :
    memWrite (withRegs s regs') a w v = (memWrite s a w v).map fun t => withRegs t regs' := by
  unfold memWrite
  by_cases h1 : misaligned a w.bytes
  · rw [if_pos h1, if_pos h1]
    rfl
  · rw [if_neg h1, if_neg h1]
    by_cases h2 : s.outside a w.bytes
    · rw [if_pos h2, if_pos h2]
      rfl
    · rw [if_neg h2, if_neg h2]
      rfl

/-- A store reads its base and its data register alone. -/
theorem sameButRegs_storeWith (w : Width) {rs1 rs2 : Reg} (imm : BitVec 12) (hd : i.dest = none)
    (h1 : (withRegs s regs').readReg rs1 = s.readReg rs1)
    (h2 : (withRegs s regs').readReg rs2 = s.readReg rs2) :
    SameButRegs i s (.next (storeWith w rs1 rs2 imm s))
      (.next (storeWith w rs1 rs2 imm (withRegs s regs'))) := by
  have haddr : storeAddr (withRegs s regs') rs1 imm = storeAddr s rs1 imm := congrArg (· + immS imm) h1
  rw [storeWith, storeWith, haddr, h2, memWrite_regs s regs']
  cases memWrite s (storeAddr s rs1 imm) w (s.readReg rs2) with
  | error k => exact sameButRegs_stop (.fault k)
  | ok t => exact sameButRegs_retire hd rfl

theorem sameButRegs_branchIf (test : Word → Word → Bool) {rs1 rs2 : Reg} (off : BitVec 13) (hd : i.dest = none)
    (h1 : (withRegs s regs').readReg rs1 = s.readReg rs1)
    (h2 : (withRegs s regs').readReg rs2 = s.readReg rs2) :
    SameButRegs i s (.next (branchIf (test (s.readReg rs1) (s.readReg rs2)) off s))
      (.next (branchIf (test ((withRegs s regs').readReg rs1) ((withRegs s regs').readReg rs2)) off
        (withRegs s regs'))) := by
  rw [h1, h2]
  exact sameButRegs_retire hd rfl

theorem sameButRegs_opWith (op : Word → Word → Word) {rd rs1 rs2 : Reg} (hd : i.dest = some rd)
    (h1 : (withRegs s regs').readReg rs1 = s.readReg rs1)
    (h2 : (withRegs s regs').readReg rs2 = s.readReg rs2) :
    SameButRegs i s (.next (opWith op rd rs1 rs2 s)) (.next (opWith op rd rs1 rs2 (withRegs s regs'))) :=
  sameButRegs_retireReg hd (congrArg₂ op h1 h2) rfl

theorem sameButRegs_opImmWith (op : Word → Word → Word) {rd rs1 : Reg} (imm : BitVec 12)
    (hd : i.dest = some rd) (h1 : (withRegs s regs').readReg rs1 = s.readReg rs1) :
    SameButRegs i s (.next (opImmWith op rd rs1 imm s))
      (.next (opImmWith op rd rs1 imm (withRegs s regs'))) :=
  sameButRegs_retireReg hd (congrArg (op · (immI imm)) h1) rfl

theorem sameButRegs_shiftImmWith (op : Word → Nat → Word) {rd rs1 : Reg} (shamt : BitVec 6)
    (hd : i.dest = some rd) (h1 : (withRegs s regs').readReg rs1 = s.readReg rs1) :
    SameButRegs i s (.next (shiftImmWith op rd rs1 shamt s))
      (.next (shiftImmWith op rd rs1 shamt (withRegs s regs'))) :=
  sameButRegs_retireReg hd (congrArg (op · shamt.toNat) h1) rfl

/-- What the one source, or each of the two sources, of an instruction satisfies. -/
theorem of_source {P : Reg → Prop} {a : Reg} (h : ∀ r ∈ [a], P r) : P a := h a List.mem_cons_self

theorem of_sources {P : Reg → Prop} {a b : Reg} (h : ∀ r ∈ [a, b], P r) : P a ∧ P b :=
  ⟨h a List.mem_cons_self, h b (List.mem_cons_of_mem a List.mem_cons_self)⟩

theorem exec_sameButRegs (h : ∀ r ∈ i.sources, (withRegs s regs').readReg r = s.readReg r) :
    SameButRegs i s (exec i s) (exec i (withRegs s regs')) := by
  cases i with
  | lui => exact sameButRegs_retireReg rfl rfl rfl
  | auipc => exact sameButRegs_retireReg rfl rfl rfl
  | jal => exact sameButRegs_retireReg rfl rfl rfl
  | jalr rd rs1 imm =>
    have htarget := congrArg (fun v => (v + immI imm) &&& 0xFFFFFFFFFFFFFFFE#64) (of_source h)
    exact sameButRegs_retireReg rfl rfl htarget
  | beq => exact sameButRegs_branchIf equalWords _ rfl (of_sources h).1 (of_sources h).2
  | bne => exact sameButRegs_branchIf (fun a b => !equalWords a b) _ rfl (of_sources h).1 (of_sources h).2
  | blt => exact sameButRegs_branchIf lessSigned _ rfl (of_sources h).1 (of_sources h).2
  | bge => exact sameButRegs_branchIf (fun a b => !lessSigned a b) _ rfl (of_sources h).1 (of_sources h).2
  | bltu => exact sameButRegs_branchIf lessUnsigned _ rfl (of_sources h).1 (of_sources h).2
  | bgeu => exact sameButRegs_branchIf (fun a b => !lessUnsigned a b) _ rfl (of_sources h).1 (of_sources h).2
  | lb => exact sameButRegs_loadWith _ _ _ rfl (of_source h)
  | lh => exact sameButRegs_loadWith _ _ _ rfl (of_source h)
  | lw => exact sameButRegs_loadWith _ _ _ rfl (of_source h)
  | ld => exact sameButRegs_loadWith _ _ _ rfl (of_source h)
  | lbu => exact sameButRegs_loadWith _ _ _ rfl (of_source h)
  | lhu => exact sameButRegs_loadWith _ _ _ rfl (of_source h)
  | lwu => exact sameButRegs_loadWith _ _ _ rfl (of_source h)
  | sb => exact sameButRegs_storeWith _ _ rfl (of_sources h).1 (of_sources h).2
  | sh => exact sameButRegs_storeWith _ _ rfl (of_sources h).1 (of_sources h).2
  | sw => exact sameButRegs_storeWith _ _ rfl (of_sources h).1 (of_sources h).2
  | sd => exact sameButRegs_storeWith _ _ rfl (of_sources h).1 (of_sources h).2
  | addi => exact sameButRegs_opImmWith _ _ rfl (of_source h)
  | xori => exact sameButRegs_opImmWith _ _ rfl (of_source h)
  | ori => exact sameButRegs_opImmWith _ _ rfl (of_source h)
  | andi => exact sameButRegs_opImmWith _ _ rfl (of_source h)
  | add => exact sameButRegs_opWith _ rfl (of_sources h).1 (of_sources h).2
  | sub => exact sameButRegs_opWith _ rfl (of_sources h).1 (of_sources h).2
  | xor => exact sameButRegs_opWith _ rfl (of_sources h).1 (of_sources h).2
  | or => exact sameButRegs_opWith _ rfl (of_sources h).1 (of_sources h).2
  | and => exact sameButRegs_opWith _ rfl (of_sources h).1 (of_sources h).2
  | halt => exact sameButRegs_stop _
  | system => exact sameButRegs_stop _
  | slti => exact sameButRegs_opImmWith _ _ rfl (of_source h)
  | sltiu => exact sameButRegs_opImmWith _ _ rfl (of_source h)
  | slli => exact sameButRegs_shiftImmWith _ _ rfl (of_source h)
  | srli => exact sameButRegs_shiftImmWith _ _ rfl (of_source h)
  | srai => exact sameButRegs_shiftImmWith _ _ rfl (of_source h)

/-- No register but register 0 and the destination is written. -/
theorem exec_keeps_reg {t : State} (h : exec i s = .next t) {r : Reg} (h0 : r ≠ 0) (hd : i.dest ≠ some r) :
    t.regs[r] = s.regs[r] := by
  have hform : Form i s (.next t) := h ▸ exec_form i s
  cases hform with
  | ends => rfl
  | writes rd v npc hrd =>
    have hne : r ≠ rd := fun e => hd (e ▸ hrd)
    rw [retireReg_regs, if_neg h0, if_neg hne]
  | stores => exact (retire_regs _ _ r).trans (if_neg h0)
  | moves npc => exact (retire_regs s npc r).trans (if_neg h0)

end

/-- Settles O27: the writes along the four forms of an answer, the reads along the instructions; the fetch of an
illegal word reads no register. -/
theorem onlyNamedRegistersMatter : Obligations.OnlyNamedRegistersMatter := by
  unfold Obligations.OnlyNamedRegistersMatter
  refine ⟨fun i s t h r h0 hd => exec_keeps_reg h h0 hd,
    fun i s t t' regs' hsrc h h' => exec_sameButRegs hsrc t t' h h', fun s w regs' hready hfetch hw => ?_⟩
  exact step_illegalWord (s := { s with regs := regs' }) hready hfetch hw

end Sys2Proof.Machine

/-! # Memory read back after it is written (20_memory.md R56, R59, R68) -/

namespace Sys2Proof.Machine

/-! ## After a store -/

/-- A store that is counted has written its bytes, aligned and in the window, and retired (R160). -/
theorem storeWith_completed {w : Width} {rs1 rs2 : Reg} {imm : BitVec 12} {s t : State}
    (h : storeWith w rs1 rs2 imm s = t) (hsteps : t.steps = s.steps + 1) :
    (storeAddr s rs1 imm).toNat % w.bytes = 0 ∧ InWindow s (storeAddr s rs1 imm) w.bytes ∧
      t = State.retire { s with mem := s.mem.writeLE (storeAddr s rs1 imm).toNat w.bytes (s.readReg rs2) }
        s.pcPlus4 := by
  unfold storeWith at h
  rcases memWrite_cases s (storeAddr s rs1 imm) w (s.readReg rs2) with
    ⟨-, hw⟩ | ⟨-, -, hw⟩ | ⟨haligned, hin, hw⟩ <;> rw [hw] at h <;> subst h
  · exact absurd hsteps (Nat.lt_succ_self _).ne
  · exact absurd hsteps (Nat.lt_succ_self _).ne
  · exact ⟨haligned, hin, rfl⟩

/-- Retiring keeps every register where register 0 is zero already (R22). -/
theorem readReg_retire_of_zero {s : State} (hzero : s.readReg 0 = 0#64) (npc : Word) (r : Reg) :
    (s.retire npc).readReg r = s.readReg r := by
  refine (retire_regs s npc r).trans ?_
  split
  · next h => rw [h, hzero]
  · rfl

/-- R59 for a store and a load of one width: the bytes of the load are the bytes of the store. -/
theorem roundTrips_of_storeWith {store load : Reg → Reg → BitVec 12 → Instr} {w : Width} {ext : Nat → Word}
    (hstore : ∀ rs1 rs2 imm s, exec (store rs1 rs2 imm) s = .next (storeWith w rs1 rs2 imm s))
    (hload : LoadsWith load w.bytes ext) : RoundTrips store load w.bytes ext := by
  intro rs1 rs2 rd imm s t hwf hzero hexec hsteps
  rw [hstore] at hexec
  obtain ⟨haligned, hin, ht⟩ := storeWith_completed (Host.Outcome.next.inj hexec) hsteps
  have hbase : t.readReg rs1 = s.readReg rs1 := ht ▸ readReg_retire_of_zero hzero s.pcPlus4 rs1
  have haddr : loadAddr t rs1 imm = storeAddr s rs1 imm := congrArg (· + immI imm) hbase
  have hwindow : InWindow t (storeAddr s rs1 imm) w.bytes := ht ▸ hin
  have hvalue : leValue t.mem (storeAddr s rs1 imm).toNat w.bytes = (s.readReg rs2).toNat % 2 ^ (8 * w.bytes) := by
    rw [← Memory.readLE_eq_leValue, ht]
    exact Memory.readLE_writeLE hwf _ _ _
  have h := hload rd rs1 imm t
  rw [← haddr] at haligned hwindow hvalue
  exact hvalue ▸ h haligned hwindow

/-- Settles O31: each store is `storeWith` of its width, and each load completes as `signedLoads` and
`unsignedLoads` say. -/
theorem storeThenLoadRoundTrip : Obligations.StoreThenLoadRoundTrip := by
  unfold Obligations.StoreThenLoadRoundTrip
  obtain ⟨hlb, hlh, hlw, hld⟩ := signedLoads
  obtain ⟨hlbu, hlhu, hlwu⟩ := unsignedLoads
  exact ⟨roundTrips_of_storeWith (w := .byte) exec_sb hlb, roundTrips_of_storeWith (w := .byte) exec_sb hlbu,
    roundTrips_of_storeWith (w := .half) exec_sh hlh, roundTrips_of_storeWith (w := .half) exec_sh hlhu,
    roundTrips_of_storeWith (w := .word) exec_sw hlw, roundTrips_of_storeWith (w := .word) exec_sw hlwu,
    roundTrips_of_storeWith (w := .double) exec_sd hld⟩

/-- The word that a fetch reads where SW has stored it. -/
theorem fetch32_writeLE {s : State} {ea : Word} (v : Word) (hwf : s.mem.wf) (haligned : ea.toNat % 4 = 0)
    (hin : InWindow s ea 4) :
    fetch32 { s with mem := s.mem.writeLE ea.toNat 4 v } ea = .ok (v.setWidth 32) := by
  refine fetch32_ok_iff.2 ⟨haligned, hin, ?_⟩
  rw [Memory.readLE_writeLE hwf]
  refine BitVec.eq_of_toNat_eq ?_
  rw [BitVec.toNat_setWidth, BitVec.toNat_ofNat, Nat.mod_mod]

/-- Settles O33: the fetch reads memory as the store has left it. -/
theorem storedWordIsFetched : Obligations.StoredWordIsFetched := by
  unfold Obligations.StoredWordIsFetched
  intro rs1 rs2 imm s t hwf hexec hsteps
  rw [exec_sw] at hexec
  obtain ⟨haligned, hin, rfl⟩ := storeWith_completed (Host.Outcome.next.inj hexec) hsteps
  have hfetch := fetch32_writeLE s.regs[rs2] hwf haligned hin
  exact ⟨hfetch, fun i hready hpc hd => step_eq_exec hready (hpc ▸ hfetch) hd⟩

/-! ## Inside a written doubleword -/

/-- Reading `n` bytes at offset `d` of the `l` bytes of a written value gives the value's bytes from `d` on. -/
theorem readLE_writeLE_inside {m : Memory} (hwf : m.wf) (a : Nat) {l d n : Nat} (v : Word) (h : d + n ≤ l) :
    (m.writeLE a l v).readLE (a + d) n = (v >>> (8 * d)).toNat % 2 ^ (8 * n) := by
  rw [← Memory.readLE_writeLE hwf (a + d) n (v >>> (8 * d))]
  refine Memory.readLE_congr fun k hk => ?_
  rw [read_writeLE_inside hwf (a + d) _ hk, Nat.add_assoc, read_writeLE_inside hwf a v (by omega)]
  refine BitVec.eq_of_getLsbD_eq fun i hi => ?_
  simp only [BitVec.getLsbD_extractLsb', BitVec.getLsbD_ushiftRight]
  congr 2
  omega

/-- An aligned doubleword does not wrap, so an offset inside it is added to its address as a number. -/
theorem toNat_add_inside {a : Word} {d : Nat} (haligned : a.toNat % 8 = 0) (hd : d < 8) :
    (a + BitVec.ofNat 64 d).toNat = a.toNat + d := by
  have := a.isLt
  rw [BitVec.toNat_add, BitVec.toNat_ofNat]
  omega

/-- A width divides the doubleword. -/
theorem aligned_inside {w : Width} {x d : Nat} (haligned : x % 8 = 0) (hd : d % w.bytes = 0) :
    (x + d) % w.bytes = 0 := by
  have hw : w.bytes ∣ 8 := by cases w <;> decide
  have hx : w.bytes ∣ x := hw.trans (Nat.dvd_of_mod_eq_zero haligned)
  exact Nat.mod_eq_zero_of_dvd (dvd_add hx (Nat.dvd_of_mod_eq_zero hd))

theorem inWindow_inside {s : State} {a b : Word} {m n : Nat} (h : InWindow s a m) (hlow : a.toNat ≤ b.toNat)
    (hhigh : b.toNat + n ≤ a.toNat + m) : InWindow s b n :=
  ⟨h.1.trans hlow, hhigh.trans h.2⟩

/-- The bits of a part of a value, as a number. -/
theorem ofNat_part (v : Word) (p n : Nat) :
    BitVec.ofNat 64 ((v >>> p).toNat % 2 ^ n) = (v.extractLsb' p n).setWidth 64 := by
  refine BitVec.eq_of_toNat_eq ?_
  rw [BitVec.toNat_ofNat, BitVec.toNat_setWidth, BitVec.extractLsb'_toNat, BitVec.toNat_ushiftRight]

/-- A read at an aligned offset inside a written doubleword gives that part of it (R56). -/
theorem memRead_inside_double {s t : State} {a v : Word} (w : Width) {d p : Nat} (hwf : s.mem.wf)
    (hwrite : memWrite s a .double v = .ok t) (hd : d % w.bytes = 0) (hin : d + w.bytes ≤ 8) (hp : p = 8 * d) :
    memRead t (a + BitVec.ofNat 64 d) w = .ok ((v.extractLsb' p (8 * w.bytes)).setWidth 64) := by
  rcases memWrite_cases s a .double v with ⟨-, h⟩ | ⟨-, -, h⟩ | ⟨haligned, hwindow, h⟩ <;> rw [h] at hwrite
  · cases hwrite
  · cases hwrite
  · obtain rfl := Except.ok.inj hwrite
    have hpos : 0 < w.bytes := by cases w <;> decide
    have haddr : (a + BitVec.ofNat 64 d).toNat = a.toNat + d := toNat_add_inside haligned (by omega)
    rw [memRead_eq_leValue, haddr, ← Memory.readLE_eq_leValue]
    · subst hp
      rw [← ofNat_part, ← readLE_writeLE_inside hwf a.toNat v hin]
      rfl
    · rw [haddr]
      exact aligned_inside haligned hd
    · exact inWindow_inside (s := s) hwindow (by omega) (by simp only [Width.bytes] at *; omega)

/-- Settles O32: the eight bytes, four halfwords and two words of the doubleword are its parts at aligned
offsets. -/
theorem widthsSeeTheSameBytes : Obligations.WidthsSeeTheSameBytes := by
  unfold Obligations.WidthsSeeTheSameBytes
  intro s t a v hwf hwrite
  refine ⟨fun k hk => ?_, fun k hk => ?_, fun k hk => ?_⟩
  · exact memRead_inside_double .byte hwf hwrite (Nat.mod_one k) hk rfl
  · exact memRead_inside_double .half hwf hwrite (Nat.mul_mod_right 2 k) (by simp only [Width.bytes]; omega)
      (by omega)
  · exact memRead_inside_double .word hwf hwrite (Nat.mul_mod_right 4 k) (by simp only [Width.bytes]; omega)
      (by omega)

end Sys2Proof.Machine

/-! # The loaded image (70_reset_and_hazards.md R236, R237) -/

namespace Sys2Proof.Machine

section
variable {c : Config} {g : Segment} {segs : List Segment} {m m' : Memory}

/-- The first of several segments: skipped, or placed where it fits (R236). -/
theorem loadSegments_cons (h : loadSegments c (g :: segs) m = some m') :
    (g.memSize = 0 ∧ loadSegments c segs m = some m') ∨
    (g.memSize ≠ 0 ∧ g.Fits c ∧ loadSegments c segs (g.place m) = some m') := by
  rw [loadSegments] at h
  split_ifs at h with hsize hfits
  · exact .inl ⟨hsize, h⟩
  · exact .inr ⟨hsize, hfits, h⟩

theorem loadSegments_append {before after : List Segment} (h : loadSegments c (before ++ after) m = some m') :
    ∃ m₁, loadSegments c before m = some m₁ ∧ loadSegments c after m₁ = some m' := by
  induction before generalizing m with
  | nil => exact ⟨m, rfl, h⟩
  | cons g before ih =>
    rcases loadSegments_cons h with ⟨hsize, h⟩ | ⟨hsize, hfits, h⟩
    · obtain ⟨m₁, h₁, h₂⟩ := ih h
      exact ⟨m₁, by rw [loadSegments, if_pos hsize, h₁], h₂⟩
    · obtain ⟨m₁, h₁, h₂⟩ := ih h
      exact ⟨m₁, by rw [loadSegments, if_neg hsize, if_pos hfits, h₁], h₂⟩

/-- Loading keeps memory canonical and in the window (R50). -/
theorem loadSegments_keeps (h : loadSegments c segs m = some m') (hwf : m.wf) (hin : MemInWindow c m) :
    m'.wf ∧ MemInWindow c m' := by
  induction segs generalizing m with
  | nil =>
    obtain rfl := Option.some.inj h
    exact ⟨hwf, hin⟩
  | cons g segs ih =>
    rcases loadSegments_cons h with ⟨-, h⟩ | ⟨-, hfits, h⟩
    · exact ih h hwf hin
    · exact ih h (g.place_wf hwf) (g.place_in hfits hin)

/-- An address that no segment covers reads as before. -/
theorem read_loadSegments_uncovered (h : loadSegments c segs m = some m') (hwf : m.wf) {a : Nat}
    (ha : ∀ g ∈ segs, ¬ g.Covers a) : m'.read a = m.read a := by
  induction segs generalizing m with
  | nil =>
    obtain rfl := Option.some.inj h
    rfl
  | cons g segs ih =>
    obtain ⟨hg, hsegs⟩ := List.forall_mem_cons.1 ha
    rcases loadSegments_cons h with ⟨-, h⟩ | ⟨-, hfits, h⟩
    · exact ih h hwf hsegs
    · exact (ih h (g.place_wf hwf) hsegs).trans ((g.read_place hwf hfits.1 a).2 hg)

/-- An address that the first segment covers and no later one reads as that segment says. -/
theorem read_loadSegments_covered (h : loadSegments c (g :: segs) m = some m') (hwf : m.wf) {a : Nat}
    (hg : g.Covers a) (ha : ∀ g ∈ segs, ¬ g.Covers a) : m'.read a = g.byteAt a := by
  rcases loadSegments_cons h with ⟨hsize, -⟩ | ⟨-, hfits, h⟩
  · obtain ⟨hlow, hhigh⟩ := hg
    omega
  · exact (read_loadSegments_uncovered h (g.place_wf hwf) ha).trans ((g.read_place hwf hfits.1 a).1 hg)

/-- A load that gives a memory has placed segments that fit (R236). -/
theorem fits_of_loadSegments (h : loadSegments c segs m = some m') (hg : g ∈ segs) (hsize : g.memSize ≠ 0) :
    g.Fits c := by
  obtain ⟨before, after, rfl⟩ := List.append_of_mem hg
  obtain ⟨m₁, -, h₁⟩ := loadSegments_append h
  rcases loadSegments_cons h₁ with ⟨hzero, -⟩ | ⟨-, hfits, -⟩
  · exact absurd hzero hsize
  · exact hfits

/-- A load of an image that gives a state (R235, R237). -/
theorem loadImage_eq_some {sp entry : Word} {s : State} (h : loadImage c sp segs entry = some s) :
    ∃ m, loadSegments c segs [] = some m ∧ entryInWindow c entry
      ∧ s = State.boot c { entry := entry, spInit := sp, memInit := m } := by
  unfold loadImage at h
  cases hm : loadSegments c segs [] with
  | none =>
    rw [hm] at h
    cases h
  | some m =>
    rw [hm] at h
    by_cases hentry : entryInWindow c entry
    · exact ⟨m, rfl, hentry, (Option.some.inj ((if_pos hentry).symm.trans h)).symm⟩
    · cases (if_neg hentry).symm.trans h

end

/-- Settles O36: the memory by the segments in order, the registers and the invariant by those of reset; and a
load that gives a state has met both checks. -/
theorem loadedImageIsPlaced : Obligations.LoadedImageIsPlaced := by
  unfold Obligations.LoadedImageIsPlaced
  refine ⟨fun c sp segs entry s h => ?_, fun c sp segs entry hbad => ?_⟩
  · obtain ⟨m, hm, hentry, rfl⟩ := loadImage_eq_some h
    refine ⟨hentry, rfl, boot_regs _ _ 2, boot_inv (loadSegments_keeps hm Memory.wf_nil nofun), ?_, ?_⟩
    · rintro before after g a rfl hg hafter
      obtain ⟨m₁, hbefore, hrest⟩ := loadSegments_append hm
      obtain ⟨hwf, -⟩ := loadSegments_keeps hbefore Memory.wf_nil nofun
      exact read_loadSegments_covered hrest hwf hg hafter
    · exact fun a ha => read_loadSegments_uncovered hm Memory.wf_nil ha
  · refine Option.eq_none_iff_forall_ne_some.2 fun s h => ?_
    obtain ⟨m, hm, hentry, -⟩ := loadImage_eq_some h
    rcases hbad with hout | ⟨g, hg, hsize, hfits⟩
    · exact hout hentry
    · exact hfits (fits_of_loadSegments hm hg hsize)

end Sys2Proof.Machine
